-- ==== Sys2Proof/Word.lean ====
section
/-! DEFINITION. The widths of the CORE's values: bytes, words, 12-bit addresses, nibbles and register numbers (10_state R18, R22; 30_encoding R66). -/
namespace Sys2Proof

/-- An 8-bit value: a V register, a timer, a memory byte, the constant NN. -/
abbrev Byte := BitVec 8

/-- A 16-bit value: the PC, I, a stack slot, an instruction word. -/
abbrev Word := BitVec 16

/-- The 12-bit field NNN (R66). -/
abbrev Addr12 := BitVec 12

/-- A 4-bit field such as N (R66). -/
abbrev Nibble := BitVec 4

/-- The number of a general register, 0 to 15 (R18). -/
abbrev RegIdx := Fin 16

/-- VF is the sixteenth register, index 15 (R19; 90_conflicts C7). -/
abbrev vF : RegIdx := 15

end Sys2Proof
end

