-- ==== Sys2Proof/Machine/Framebuffer.lean ====
section
/-! DEFINITION. The 64 x 32 framebuffer (10_state R32) and the drawing of a sprite on it (43_display R110, R111). -/
namespace Sys2Proof.Machine

/-- `fb[r][c]`: 32 rows of 64 pixels, each 0 or 1 (R32). -/
abbrev Framebuffer := Vector (Vector Bool 64) 32

/-- Every pixel 0 (R33, R109). -/
def Framebuffer.blank : Framebuffer := Vector.replicate 32 (Vector.replicate 64 false)

/-- The pixel at row `r`, column `c`. -/
def Framebuffer.pixel (fb : Framebuffer) (r : Fin 32) (c : Fin 64) : Bool := (fb[r.val])[c.val]

/-- The framebuffer with that one pixel written. -/
def Framebuffer.setPixel (fb : Framebuffer) (r : Fin 32) (c : Fin 64) (b : Bool) : Framebuffer :=
  fb.set r.val ((fb[r.val]).set c.val b)

/-- XOR a 1 onto one pixel; the flag `hit` collects "this pixel goes from 1 to 0" (R110). -/
def flipPixel (r : Fin 32) (c : Fin 64) (acc : Framebuffer × Bool) : Framebuffer × Bool :=
  (acc.1.setPixel r c (!acc.1.pixel r c), acc.2 || acc.1.pixel r c)

/-- `r` of R110: a row coordinate wraps mod 32. -/
def wrapRow (y : Nat) : Fin 32 := Fin.ofNat 32 y

/-- `c` of R110: a column coordinate wraps mod 64. -/
def wrapCol (x : Nat) : Fin 64 := Fin.ofNat 64 x

/-- `b[7 - col]`: bit 7 is the leftmost pixel (R111). DESIGN CHOICE of the spec (D13, log entry 10). -/
def spriteBit (b : Byte) (col : Nat) : Bool := b.getLsbD (7 - col)

/-- One column of a sprite row whose left end is at (`x`, `y`). -/
def drawBit (x y : Nat) (b : Byte) (acc : Framebuffer × Bool) (col : Nat) : Framebuffer × Bool :=
  if spriteBit b col then flipPixel (wrapRow y) (wrapCol (x + col)) acc else acc

/-- One sprite row: columns 0 to 7. -/
def drawRow (x y : Nat) (b : Byte) (acc : Framebuffer × Bool) : Framebuffer × Bool :=
  (List.range 8).foldl (drawBit x y b) acc

/-- The rows of a sprite, the first at row coordinate `y`, with the collision collected so far. -/
def drawSprite (x y : Nat) : List Byte → Framebuffer × Bool → Framebuffer × Bool
  | [], acc => acc
  | b :: rows, acc => drawSprite x (y + 1) rows (drawRow x y b acc)

end Sys2Proof.Machine
end

