-- ==== Sys2Proof/Config.lean ====
section
/-! DEFINITION. The open parameters of 00_scope R9, as plain data that a session fixes at construction, and the free value of the random oracle. -/
namespace Sys2Proof

/-- `haltWords` (R9, R70; D5): which group-0 words decode to HALT.
`standard` is the spec's default, every 0x0NNN except 0x00E0 and 0x00EE; `listed` names the words. -/
inductive HaltWords where
  | standard
  | listed (ws : List Word)
  deriving DecidableEq, Repr, Inhabited

/-- `shiftSource` (R9, R97, R99; D11): the register that SHR and SHL read. -/
inductive ShiftSource where
  | x
  | y
  deriving DecidableEq, Repr, Inhabited

/-- The parameters of 00_scope R9 that a running session depends on.
No step and no host operation changes them. `resetRegs` is an argument of construction only
(Machine/Defaults.lean), and `rng` is `Config.rng`. -/
structure Params where
  /-- which group-0 words are HALT (D5) -/
  haltWords : HaltWords
  /-- whether FX55 and FX65 leave I = I + X + 1 (D10) -/
  loadStoreIncrementsI : Bool
  /-- the register SHR and SHL read (D11) -/
  shiftSource : ShiftSource
  /-- the 80 bytes at 0x000-0x04F (D17) -/
  fontBytes : Vector Byte 80
  /-- what a program-region byte that nothing has defined reads as; `none`: reading it faults (D20) -/
  unloadedFill : Option Byte
  deriving DecidableEq, Repr, Inhabited

/-- The random oracle of R101: the byte of the n-th draw of the session. FREE VALUE (D23, log entry 6):
it has no body, so nothing can be proved of any draw and a statement holds for every sequence. -/
opaque Config.rng : Nat → Byte

end Sys2Proof
end

