-- ==== Sys2Proof/Machine/Defaults.lean ====
section
/-! DEFINITION. The default of each parameter of 00_scope R9 and what `haltWords` contains, as the spec's decisions give them. -/
namespace Sys2Proof

/-- Membership in `haltWords` (30_encoding R70; D5, log entry 5): by default every group-0 word but 00E0 and 00EE. -/
def HaltWords.contains : HaltWords → Word → Bool
  | .standard, w => w.extractLsb' 12 4 = 0 && w ≠ 0x00E0 && w ≠ 0x00EE
  | .listed ws, w => ws.contains w

/-- Glyphs 0 to 7 of the font table of 20_memory R46 (PRESUMED by the spec: general knowledge, log entry 7). -/
def fontLow : List Byte :=
  [0xF0, 0x90, 0x90, 0x90, 0xF0] ++ [0x20, 0x60, 0x20, 0x20, 0x70] ++
  [0xF0, 0x10, 0xF0, 0x80, 0xF0] ++ [0xF0, 0x10, 0xF0, 0x10, 0xF0] ++
  [0x90, 0x90, 0xF0, 0x10, 0x10] ++ [0xF0, 0x80, 0xF0, 0x10, 0xF0] ++
  [0xF0, 0x80, 0xF0, 0x90, 0xF0] ++ [0xF0, 0x10, 0x20, 0x40, 0x40]

/-- Glyphs 8 to F of the font table of 20_memory R46. -/
def fontHigh : List Byte :=
  [0xF0, 0x90, 0xF0, 0x90, 0xF0] ++ [0xF0, 0x90, 0xF0, 0x10, 0xF0] ++
  [0xF0, 0x90, 0xF0, 0x90, 0x90] ++ [0xE0, 0x90, 0xE0, 0x90, 0xE0] ++
  [0xF0, 0x80, 0x80, 0x80, 0xF0] ++ [0xE0, 0x90, 0x90, 0x90, 0xE0] ++
  [0xF0, 0x80, 0xF0, 0x80, 0xF0] ++ [0xF0, 0x80, 0xF0, 0x80, 0x80]

/-- The default `fontBytes`: 16 glyphs of 5 bytes at 0x000-0x04F (R46, R47; D17). -/
def defaultFont : Vector Byte 80 := ⟨(fontLow ++ fontHigh).toArray, rfl⟩

/-- The parameters at their defaults (R9): D5, D10, D11, D17, D20. -/
def defaultParams : Params where
  haltWords := .standard
  loadStoreIncrementsI := false
  shiftSource := .x
  fontBytes := defaultFont
  unloadedFill := none

/-- `resetRegs` for V0-VF: the spec gives no reset value (R21, N5). DESIGN CHOICE 0, log entry 1. -/
def resetV : Vector Byte 16 := Vector.replicate 16 0

/-- `resetRegs` for I: the spec gives no reset value (R26, N5). DESIGN CHOICE 0, log entry 1. -/
def resetI : Word := 0

/-- What the unset stack slots hold: never read before a write (R29). DESIGN CHOICE 0, log entry 2. -/
def resetStack : Vector Word 16 := Vector.replicate 16 0

end Sys2Proof
end

