-- ==== Sys2Proof/Machine/Memory.lean ====
section
/-! DEFINITION. The AddressSpace's contents (20_memory R41-R46): a list of (address, byte) cells in one canonical form, its regions, and the one definition of what an unlisted address holds. -/
namespace Sys2Proof.Machine

/-- The listed bytes, addresses rising. -/
abbrev Memory := List Host.Cell

/-- `valid(a)`: the program region 0x200-0xFFF (R48). -/
def valid (a : Nat) : Bool := 0x200 ≤ a && a ≤ 0xFFF

/-- Where `MemRead` is allowed: the font and the program region (R42, R49). -/
def readable (a : Nat) : Bool := a ≤ 0x04F || valid a

/-- What an address that is not listed holds: the font byte at 0x000-0x04F (R44, R46), `unloadedFill` in the
program region (R45; `none` means unset), nothing elsewhere (reserved bytes are unobservable, and 0x1000 and
above does not exist). -/
def Memory.unlisted (p : Params) (a : Nat) : Option Byte :=
  if h : a < 80 then some p.fontBytes[a]
  else if valid a then p.unloadedFill
  else none

/-- The listed byte at `a`, if there is one. -/
def Memory.find (m : Memory) (a : Nat) : Option Byte :=
  match m with
  | [] => none
  | (b, v) :: rest => if b = a then some v else Memory.find rest a

/-- `contents[a]`; `none` means unset (R45). -/
def Memory.byteAt (p : Params) (m : Memory) (a : Nat) : Option Byte :=
  match Memory.find m a with
  | some v => some v
  | none => Memory.unlisted p a

/-- List `v` at `a`, keeping the addresses rising. -/
def Memory.insert (m : Memory) (a : Nat) (v : Byte) : Memory :=
  match m with
  | [] => [(a, v)]
  | (b, w) :: rest =>
    if a < b then (a, v) :: (b, w) :: rest
    else if a = b then (a, v) :: rest
    else (b, w) :: Memory.insert rest a v

/-- List nothing at `a`. -/
def Memory.erase (m : Memory) (a : Nat) : Memory := m.filter (fun c => c.1 ≠ a)

/-- `contents[a] <- v`, keeping the canonical form: a value the unlisted address already holds is not listed. -/
def Memory.set (p : Params) (m : Memory) (a : Nat) (v : Byte) : Memory :=
  if Memory.unlisted p a = some v then Memory.erase m a else Memory.insert m a v

/-- The canonical form: addresses strictly rising, every listed address in the program region (nothing else is ever
written, R50), and no cell equal to what its address holds unlisted. -/
abbrev Memory.wf (p : Params) (m : Memory) : Prop :=
  m.Pairwise (fun c d => c.1 < d.1) ∧ ∀ c ∈ m, valid c.1 = true ∧ Memory.unlisted p c.1 ≠ some c.2

end Sys2Proof.Machine
end

