-- ==== Sys2Proof/Machine/State.lean ====
section
/-! DEFINITION. The state of the CORE (10_state), its faults (60_exceptions R122, R123), its refusals, and the state right after reset (70_reset R146). -/
namespace Sys2Proof.Machine

/-- The kind of a failing access (20_memory R57). -/
inductive AccessKind where
  | read
  | write
  | fetch
  deriving DecidableEq, Repr, Inhabited

/-- The fault records of 60_exceptions R122 and R123: the cause with its information, and `pc`, the PC when the step
began. A fault is what the spec says the step answers, so stopping on it is the spec's own behaviour. -/
inductive Fault where
  /-- code 1. Raised by every fetch, by MemRead in DRW and LD Vx, [I], and by MemWrite in LD B, Vx and LD [I], Vx,
  at an address the region rules forbid (R42). Safe: the spec names it (no wrap and no fetch from the font, D6, D8). -/
  | outOfRangeAccess (a : Nat) (kind : AccessKind) (pc : Word)
  /-- code 2. Raised by the decode of every step on a word that R75 calls illegal. Safe: the spec names it. -/
  | decodeFailure (w : Word) (pc : Word)
  /-- code 3. Raised by CALL with SP = 16. Safe: the spec names it. -/
  | stackOverflow (pc : Word)
  /-- code 4. Raised by RET with SP = 0. Safe: the spec names it (D4). -/
  | stackUnderflow (pc : Word)
  /-- code 5. Raised by a fetch or MemRead of a memory byte that nothing has defined (R45).
  Safe: the model stops where a machine that fills its memory goes on (D20). -/
  | unsetRead (a : Nat) (pc : Word)
  /-- code 6. Raised by SKP, SKNP and LD F, Vx when V[X] > 15. Safe: the model stops where a machine that masks
  the value goes on (D15, D16). -/
  | operandOutOfRange (v : Byte) (pc : Word)
  deriving DecidableEq, Repr, Inhabited

/-- What the model does not admit. -/
inductive Refusal where
  /-- Raised by `exec` for an instruction that has no meaning; no arm uses it. Safe. -/
  | notModelled (mnemonic : String)
  /-- Raised by `step` when `running = false`: no step is valid after HALT (R126). Safe. -/
  | stepAfterHalt
  /-- Raised by `step` when `fault` is set: no step is taken after a fault (R125). Safe. -/
  | stepAfterFault
  /-- Raised by `construct` on an image longer than 0xE00 bytes (R44). Safe. -/
  | imageTooLong (length : Nat)
  /-- Raised by `keyEvent` on a key outside 0-15 (R134). Safe. -/
  | keyOutOfRange (k : Nat)
  deriving DecidableEq, Repr, Inhabited

/-- Everything the spec gives the machine (10_state R40), and the model's own counter `draws`. -/
structure State where
  /-- V0-VF (R18) -/
  v : Vector Byte 16
  /-- PC (R22) -/
  pc : Word
  /-- I (R25) -/
  i : Word
  /-- stack[0..15] (R27); slots at SP and above are unset and never read -/
  stack : Vector Word 16
  /-- SP, the number of entries in use, 0 to 16 (R27) -/
  sp : Fin 17
  /-- DT (R30) -/
  dt : Byte
  /-- ST (R30) -/
  st : Byte
  /-- fb (R32) -/
  fb : Framebuffer
  /-- key[0..15] (R34) -/
  keys : Vector Bool 16
  /-- running (R36) -/
  running : Bool
  /-- dirty (R37) -/
  dirty : Bool
  /-- the first fault of the session (R39) -/
  fault : Option Fault
  /-- the bytes of memory that differ from what an unlisted address holds (R41, R45) -/
  mem : Memory
  /-- the session's parameters (R9), fixed at construction -/
  params : Params
  /-- the model's own field: how many bytes the session has drawn from the oracle (R101, log entry 6) -/
  draws : Nat
  deriving DecidableEq, Repr, Inhabited

/-- What a step, or a host operation that changes the state, answers. -/
abbrev Result := Host.Outcome State Fault Refusal

/-- The machine right after reset: construction with the default parameters and an empty image (70_reset R146;
10_state R40). V0-VF, I and the stack slots hold DESIGN CHOICE zeros (log entries 1 and 2). -/
def State.reset : State where
  v := resetV
  pc := 0x200
  i := resetI
  stack := resetStack
  sp := 0
  dt := 0
  st := 0
  fb := Framebuffer.blank
  keys := Vector.replicate 16 false
  running := true
  dirty := false
  fault := none
  mem := []
  params := defaultParams
  draws := 0

end Sys2Proof.Machine
end

