-- ==== Sys2Proof/Machine/Ops.lean ====
section
/-! DEFINITION. The named operations over registers, memory, stack, oracle and PC (10_state, 20_memory, 60_exceptions R122-R124), and raising a fault as one shared operation. -/
namespace Sys2Proof.Machine

/-! ## Registers -/

/-- `V[x]` (R18). -/
def State.reg (s : State) (x : RegIdx) : Byte := s.v[x.val]

/-- `V[x] <- b` (R18). -/
def State.setReg (s : State) (x : RegIdx) (b : Byte) : State := { s with v := s.v.set x.val b }

/-- `I <- w` (R25). -/
def State.setI (s : State) (w : Word) : State := { s with i := w }

/-- `PC <- target` (R24: no mask). -/
def State.setPc (s : State) (w : Word) : State := { s with pc := w }

/-- `PC <- trunc16(PC + n)` (R23). -/
def State.advance (s : State) (n : Nat) : State := s.setPc (s.pc + BitVec.ofNat 16 n)

/-- `DT <- b` (R30). -/
def State.setDt (s : State) (b : Byte) : State := { s with dt := b }

/-- `ST <- b` (R30). -/
def State.setSt (s : State) (b : Byte) : State := { s with st := b }

/-- `running <- false` (R36). -/
def State.halt (s : State) : State := { s with running := false }

/-- The framebuffer written and `dirty` set, which CLS and DRW do together (R37, R113). -/
def State.setFb (s : State) (fb : Framebuffer) : State := { s with fb := fb, dirty := true }

/-! ## Raising a fault (R122, R124) -/

/-- `raise`: if `r` is a fault, the step stops here and answers it; no later statement runs and PC does not advance.
Every fault record is made by the operation that raises it, from the `pc` the step began with.
There is no trap entry and no return from one (R130, R131). -/
def orRaise {α : Type} (r : Except Fault α) (k : α → Result) : Result :=
  match r with
  | .ok a => k a
  | .error f => .fault f

/-! ## Memory (R49-R52) -/

/-- `contents[a]`; `none` means unset. -/
def State.byteAt (s : State) (a : Nat) : Option Byte := Memory.byteAt s.params s.mem a

/-- The byte at `a` if it is defined, `UnsetRead(a)` otherwise (R45; log entry 4). -/
def State.definedByte (s : State) (a : Nat) : Except Fault Byte :=
  match s.byteAt a with
  | some b => .ok b
  | none => .error (.unsetRead a s.pc)

/-- `MemRead(a, 1)` (R49). -/
def State.memRead (s : State) (a : Nat) : Except Fault Byte :=
  if readable a then s.definedByte a else .error (.outOfRangeAccess a .read s.pc)

/-- `Fetch(a)` (R51; D6, log entry 11). -/
def State.fetchByte (s : State) (a : Nat) : Except Fault Byte :=
  if valid a then s.definedByte a else .error (.outOfRangeAccess a .fetch s.pc)

/-- `contents[a] <- b`. -/
def State.setByte (s : State) (a : Nat) (b : Byte) : State := { s with mem := Memory.set s.params s.mem a b }

/-- The bytes of a list at `a`, `a + 1`, ..., unchecked. -/
def State.setBytes (s : State) (a : Nat) : List Byte → State
  | [] => s
  | b :: bs => (s.setByte a b).setBytes (a + 1) bs

/-- `MemWrite(a, 1, b)` (R50). -/
def State.memWrite (s : State) (a : Nat) (b : Byte) : Except Fault State :=
  if valid a then .ok (s.setByte a b) else .error (.outOfRangeAccess a .write s.pc)

/-- `n` reads at `a`, `a + 1`, ..., in ascending order, addresses exact naturals (R52, R55); the first that fails is raised. -/
def State.readBytes (s : State) (a : Nat) : Nat → Except Fault (List Byte)
  | 0 => .ok []
  | n + 1 =>
    match s.memRead a with
    | .error f => .error f
    | .ok b =>
      match s.readBytes (a + 1) n with
      | .error f => .error f
      | .ok bs => .ok (b :: bs)

/-- Writes of the bytes of a list at `a`, `a + 1`, ..., in ascending order (R52, R55); the first that fails is raised. -/
def State.writeBytes (s : State) (a : Nat) : List Byte → Except Fault State
  | [] => .ok s
  | b :: bs =>
    match s.memWrite a b with
    | .error f => .error f
    | .ok s' => s'.writeBytes (a + 1) bs

/-! ## Call stack (R28) -/

/-- `Push(w)`: `StackOverflow` when SP = 16. -/
def State.push (s : State) (w : Word) : Except Fault State :=
  if h : s.sp.val < 16 then .ok { s with stack := s.stack.set s.sp.val w, sp := ⟨s.sp.val + 1, by omega⟩ }
  else .error (.stackOverflow s.pc)

/-- `Pop()`: `StackUnderflow` when SP = 0 (D4, log entry 12). -/
def State.pop (s : State) : Except Fault (Word × State) :=
  if h : s.sp.val = 0 then .error (.stackUnderflow s.pc)
  else .ok (s.stack[s.sp.val - 1]'(by omega), { s with sp := ⟨s.sp.val - 1, by omega⟩ })

/-! ## The random oracle (R101) -/

/-- `draw_rng()`: one byte of the oracle, a free value (log entry 6). -/
def State.drawRng (s : State) : Byte × State := (Config.rng s.draws, { s with draws := s.draws + 1 })

/-! ## Registers V0 to V[X] as a block (R107, R108) -/

/-- V0 to V[x], in order. -/
def State.regsUpTo (s : State) (x : RegIdx) : List Byte :=
  (List.range (x.val + 1)).map (fun k => s.reg (Fin.ofNat 16 k))

/-- The bytes of a list into V[k], V[k + 1], ..., in order. -/
def State.loadRegs (s : State) (k : Nat) : List Byte → State
  | [] => s
  | b :: bs => (s.setReg (Fin.ofNat 16 k) b).loadRegs (k + 1) bs

/-- `if loadStoreIncrementsI: I <- trunc16(I + n)` (R107, R108; D10, log entry 5). -/
def State.incrementI (s : State) (n : Nat) : State :=
  if s.params.loadStoreIncrementsI then s.setI (s.i + BitVec.ofNat 16 n) else s

/-! ## How a step ends (R14, R62) -/

/-- An instruction that is no control transfer: PC advances by 2. -/
def State.done (s : State) : Result := .next (s.advance 2)

/-- A skip: PC advances by 4 when the condition holds and by 2 otherwise (R23). -/
def State.skipIf (s : State) (c : Bool) : Result := .next (s.advance (if c then 4 else 2))

/-- A control transfer: PC is the target, stored unmasked and unchecked (R24, R88). -/
def State.jump (s : State) (target : Word) : Result := .next (s.setPc target)

end Sys2Proof.Machine
end

