-- ==== Sys2Proof/Machine/Flags.lean ====
section
/-! DEFINITION. The values VF takes as a flag (10_state R19; 41_alu R95-R99) and the write of it. -/
namespace Sys2Proof.Machine

/-- A boolean used as a number: 1 or 0 (R11). -/
def flagByte (b : Bool) : Byte := if b then 1 else 0

/-- `V[F] <- b` (R19). -/
def State.setFlag (s : State) (b : Bool) : State := s.setReg vF (flagByte b)

/-- Carry out of bit 7: the exact sum exceeds 255 (R95). -/
def carry (a b : Byte) : Bool := 255 < a.toNat + b.toNat

/-- No borrow in `a - b` (R96, R98). -/
def noBorrow (a b : Byte) : Bool := b.toNat ≤ a.toNat

/-- The bit a right shift by one moves out (R97). -/
def bitOutRight (a : Byte) : Bool := a.getLsbD 0

/-- The bit a left shift by one moves out (R99). -/
def bitOutLeft (a : Byte) : Bool := a.getLsbD 7

end Sys2Proof.Machine
end

