-- ==== Sys2Proof/Machine/Operands.lean ====
section
/-! DEFINITION. The operand forms that are more than a register or a constant (30_encoding R67; 41_alu R97, R99; 42 R105, R106; 44 R114, R117). -/
namespace Sys2Proof.Machine

/-- `zext16(NNN)` (R67). -/
def zextAddr (nnn : Addr12) : Word := nnn.zeroExtend 16

/-- `zext16` of a V register's value (R11). -/
def zextByte (b : Byte) : Word := b.zeroExtend 16

/-- I as the exact natural number that addresses are formed from (R52). -/
def State.indexAddr (s : State) : Nat := s.i.toNat

/-- The register SHR and SHL read: X by default, Y when `shiftSource = Y` (R97, R99; D11, log entry 5). -/
def State.shiftReg (s : State) (x y : RegIdx) : RegIdx :=
  match s.params.shiftSource with
  | .x => x
  | .y => y

/-- A V register's value as a key number or hexadecimal digit: `OperandOutOfRange` above 15
(R105, R114, R115; D15, D16, log entry 13). -/
def State.digitOf (s : State) (x : RegIdx) : Except Fault (Fin 16) :=
  if h : (s.reg x).toNat ≤ 15 then .ok ⟨(s.reg x).toNat, by omega⟩
  else .error (.operandOutOfRange (s.reg x) s.pc)

/-- `key[k]` (R34). -/
def State.key (s : State) (k : Fin 16) : Bool := s.keys[k.val]

/-- The least pressed key, if any is pressed (R117; D14, log entry 14). -/
def State.lowestKey (s : State) : Option (Fin 16) := (List.finRange 16).find? (fun k => s.key k)

/-- `5 * d`, the address of glyph `d` (R47, R105). -/
def glyphAddr (d : Fin 16) : Word := BitVec.ofNat 16 (5 * d.val)

/-- The three decimal digits of a byte, most significant first (R106). -/
def decimalDigits (b : Byte) : List Byte :=
  [BitVec.ofNat 8 (b.toNat / 100), BitVec.ofNat 8 (b.toNat / 10 % 10), BitVec.ofNat 8 (b.toNat % 10)]

end Sys2Proof.Machine
end

