-- ==== Sys2Proof/Machine/Alu.lean ====
section
/-! DEFINITION. The meanings of 41_alu: register loads, arithmetic, logic, shifts and RND. The statements of each rule run in the order written, which matters when X or Y is F (U21, U22; log entry 16). -/
namespace Sys2Proof.Machine

/-- LD Vx, byte (R89). -/
def execLdVxByte (x : RegIdx) (nn : Byte) (s : State) : Result := (s.setReg x nn).done

/-- ADD Vx, byte (R90): no flag. -/
def execAddVxByte (x : RegIdx) (nn : Byte) (s : State) : Result := (s.setReg x (s.reg x + nn)).done

/-- LD Vx, Vy (R91). -/
def execLdVxVy (x y : RegIdx) (s : State) : Result := (s.setReg x (s.reg y)).done

/-- OR Vx, Vy (R92). -/
def execOrVxVy (x y : RegIdx) (s : State) : Result := (s.setReg x (s.reg x ||| s.reg y)).done

/-- AND Vx, Vy (R93). -/
def execAndVxVy (x y : RegIdx) (s : State) : Result := (s.setReg x (s.reg x &&& s.reg y)).done

/-- XOR Vx, Vy (R94). -/
def execXorVxVy (x y : RegIdx) (s : State) : Result := (s.setReg x (s.reg x ^^^ s.reg y)).done

/-- ADD Vx, Vy (R95): the sum first, the carry last. -/
def execAddVxVy (x y : RegIdx) (s : State) : Result :=
  let c := carry (s.reg x) (s.reg y)
  ((s.setReg x (s.reg x + s.reg y)).setFlag c).done

/-- SUB Vx, Vy (R96): the flag first; the difference reads V[X] and V[Y] after it. -/
def execSubVxVy (x y : RegIdx) (s : State) : Result :=
  let s1 := s.setFlag (noBorrow (s.reg x) (s.reg y))
  (s1.setReg x (s1.reg x - s1.reg y)).done

/-- SHR Vx {, Vy} (R97): the flag first; the shift re-reads the source after it (D12). -/
def execShrVxVy (x y : RegIdx) (s : State) : Result :=
  let s1 := s.setFlag (bitOutRight (s.reg (s.shiftReg x y)))
  (s1.setReg x (s1.reg (s.shiftReg x y) >>> 1)).done

/-- SUBN Vx, Vy (R98): the flag first; the difference reads after it. -/
def execSubnVxVy (x y : RegIdx) (s : State) : Result :=
  let s1 := s.setFlag (noBorrow (s.reg y) (s.reg x))
  (s1.setReg x (s1.reg y - s1.reg x)).done

/-- SHL Vx {, Vy} (R99): the flag first; the shift re-reads the source after it (D12). -/
def execShlVxVy (x y : RegIdx) (s : State) : Result :=
  let s1 := s.setFlag (bitOutLeft (s.reg (s.shiftReg x y)))
  (s1.setReg x (s1.reg (s.shiftReg x y) <<< 1)).done

/-- RND Vx, byte (R100): one draw of the oracle, masked. -/
def execRndVxByte (x : RegIdx) (nn : Byte) (s : State) : Result :=
  let d := s.drawRng
  (d.2.setReg x (d.1 &&& nn)).done

end Sys2Proof.Machine
end

