-- ==== Sys2Proof/Machine/ControlFlow.lean ====
section
/-! DEFINITION. The meanings of 40_control_flow: HALT, RET, JP, CALL, the four skips on values, JP V0. -/
namespace Sys2Proof.Machine

/-- HALT (R79): clears `running`; NNN is not read; PC still advances by 2 (90_conflicts C8). -/
def execHalt (_nnn : Addr12) (s : State) : Result := s.halt.done

/-- RET (R80). -/
def execRet (s : State) : Result := orRaise s.pop (fun r => r.2.jump r.1)

/-- JP addr (R81). -/
def execJpAddr (nnn : Addr12) (s : State) : Result := s.jump (zextAddr nnn)

/-- CALL addr (R82): pushes `trunc16(PC + 2)` (90_conflicts C2; D3, log entry 15). -/
def execCallAddr (nnn : Addr12) (s : State) : Result :=
  orRaise (s.push (s.pc + 2)) (fun s' => s'.jump (zextAddr nnn))

/-- SE Vx, byte (R83). -/
def execSeVxByte (x : RegIdx) (nn : Byte) (s : State) : Result := s.skipIf (s.reg x = nn)

/-- SNE Vx, byte (R84). -/
def execSneVxByte (x : RegIdx) (nn : Byte) (s : State) : Result := s.skipIf (s.reg x ≠ nn)

/-- SE Vx, Vy (R85). -/
def execSeVxVy (x y : RegIdx) (s : State) : Result := s.skipIf (s.reg x = s.reg y)

/-- SNE Vx, Vy (R86). -/
def execSneVxVy (x y : RegIdx) (s : State) : Result := s.skipIf (s.reg x ≠ s.reg y)

/-- JP V0, addr (R87): the sum is kept in full; V0 is the only offset. -/
def execJpV0Addr (nnn : Addr12) (s : State) : Result := s.jump (zextAddr nnn + zextByte (s.reg 0))

end Sys2Proof.Machine
end

