-- ==== Sys2Proof/Machine/Display.lean ====
section
/-! DEFINITION. The meanings of 43_display: CLS and DRW. -/
namespace Sys2Proof.Machine

/-- CLS (R109). -/
def execCls (s : State) : Result := (s.setFb Framebuffer.blank).done

/-- DRW Vx, Vy, nibble (R110): the N rows at I are read in ascending order, XORed onto the framebuffer, and VF is
written last. Reading every row before drawing any is the same: a fault part-way leaves the framebuffer unspecified
(R125), and drawing does not change memory (log entry 18). -/
def execDrwVxVyNibble (x y : RegIdx) (n : Nibble) (s : State) : Result :=
  orRaise (s.readBytes s.indexAddr n.toNat) (fun rows =>
    let d := drawSprite (s.reg x).toNat (s.reg y).toNat rows (s.fb, false)
    ((s.setFb d.1).setFlag d.2).done)

end Sys2Proof.Machine
end

