-- ==== Sys2Proof/Machine/IndexMemory.lean ====
section
/-! DEFINITION. The meanings of 42_index_memory: I, the font address, decimal digits, and the block store and load. -/
namespace Sys2Proof.Machine

/-- LD I, addr (R103). -/
def execLdIAddr (nnn : Addr12) (s : State) : Result := (s.setI (zextAddr nnn)).done

/-- ADD I, Vx (R104): wraps mod 65536; VF is not written (D9, log entry 17). -/
def execAddIVx (x : RegIdx) (s : State) : Result := (s.setI (s.i + zextByte (s.reg x))).done

/-- LD F, Vx (R105). -/
def execLdFVx (x : RegIdx) (s : State) : Result :=
  orRaise (s.digitOf x) (fun d => (s.setI (glyphAddr d)).done)

/-- LD B, Vx (R106): the digits of the value read first, at I, I + 1, I + 2. -/
def execLdBVx (x : RegIdx) (s : State) : Result :=
  orRaise (s.writeBytes s.indexAddr (decimalDigits (s.reg x))) State.done

/-- LD [I], Vx (R107). -/
def execLdMemIVx (x : RegIdx) (s : State) : Result :=
  orRaise (s.writeBytes s.indexAddr (s.regsUpTo x)) (fun s' => (s'.incrementI (x.val + 1)).done)

/-- LD Vx, [I] (R108). -/
def execLdVxMemI (x : RegIdx) (s : State) : Result :=
  orRaise (s.readBytes s.indexAddr (x.val + 1)) (fun bs => ((s.loadRegs 0 bs).incrementI (x.val + 1)).done)

end Sys2Proof.Machine
end

