-- ==== Sys2Proof/Machine/TimersInput.lean ====
section
/-! DEFINITION. The meanings of 44_timers_input: the key skips, the key wait and the timer moves. -/
namespace Sys2Proof.Machine

/-- SKP Vx (R114). -/
def execSkpVx (x : RegIdx) (s : State) : Result := orRaise (s.digitOf x) (fun k => s.skipIf (s.key k))

/-- SKNP Vx (R115). -/
def execSknpVx (x : RegIdx) (s : State) : Result := orRaise (s.digitOf x) (fun k => s.skipIf (!s.key k))

/-- LD Vx, DT (R116). -/
def execLdVxDt (x : RegIdx) (s : State) : Result := (s.setReg x s.dt).done

/-- LD Vx, K (R117): the least pressed key, or PC left where it is (D14, log entry 14). -/
def execLdVxK (x : RegIdx) (s : State) : Result :=
  match s.lowestKey with
  | some k => (s.setReg x (BitVec.ofNat 8 k.val)).done
  | none => .next (s.advance 0)

/-- LD DT, Vx (R118). -/
def execLdDtVx (x : RegIdx) (s : State) : Result := (s.setDt (s.reg x)).done

/-- LD ST, Vx (R119). -/
def execLdStVx (x : RegIdx) (s : State) : Result := (s.setSt (s.reg x)).done

end Sys2Proof.Machine
end

