-- ==== Sys2Proof/Syntax.lean ====
section
/-! DEFINITION. The 35 instructions of spec/opcode_table.json, one constructor per row, with the decoded fields of 30_encoding R66. -/
namespace Sys2Proof

/-- The instructions (30_encoding R69). `x` and `y` are the register fields X and Y, `nn`, `nnn` and `n`
the constants NN, NNN and N. HALT carries NNN although it does not read it (R76), so that no bit of its word is lost;
SHR and SHL carry Y, which they read only when `shiftSource` is Y. -/
inductive Instr where
  | halt (nnn : Addr12)
  | cls
  | ret
  | jpAddr (nnn : Addr12)
  | callAddr (nnn : Addr12)
  | seVxByte (x : RegIdx) (nn : Byte)
  | sneVxByte (x : RegIdx) (nn : Byte)
  | seVxVy (x y : RegIdx)
  | ldVxByte (x : RegIdx) (nn : Byte)
  | addVxByte (x : RegIdx) (nn : Byte)
  | ldVxVy (x y : RegIdx)
  | orVxVy (x y : RegIdx)
  | andVxVy (x y : RegIdx)
  | xorVxVy (x y : RegIdx)
  | addVxVy (x y : RegIdx)
  | subVxVy (x y : RegIdx)
  | shrVxVy (x y : RegIdx)
  | subnVxVy (x y : RegIdx)
  | shlVxVy (x y : RegIdx)
  | sneVxVy (x y : RegIdx)
  | ldIAddr (nnn : Addr12)
  | jpV0Addr (nnn : Addr12)
  | rndVxByte (x : RegIdx) (nn : Byte)
  | drwVxVyNibble (x y : RegIdx) (n : Nibble)
  | skpVx (x : RegIdx)
  | sknpVx (x : RegIdx)
  | ldVxDt (x : RegIdx)
  | ldVxK (x : RegIdx)
  | ldDtVx (x : RegIdx)
  | ldStVx (x : RegIdx)
  | addIVx (x : RegIdx)
  | ldFVx (x : RegIdx)
  | ldBVx (x : RegIdx)
  | ldMemIVx (x : RegIdx)
  | ldVxMemI (x : RegIdx)
  deriving DecidableEq, Repr

end Sys2Proof
end

