-- ==== Sys2Proof/WellFormed.lean ====
section
/-! DEFINITION. Which terms of `Instr` an encoding stands for (30_encoding R69, R70). Every operand but HALT's is any value of its field, which its type says. -/
namespace Sys2Proof

/-- HALT's word is a group-0 word that is not CLS's (00E0) nor RET's (00EE) and is in `haltWords` (R70).
Every other instruction has a word for every value of its fields. -/
def Instr.wellFormed (hw : HaltWords) : Instr → Bool
  | .halt nnn => nnn ≠ 0x0E0 && nnn ≠ 0x0EE && hw.contains ((0 : Nibble) ++ nnn)
  | .cls | .ret | .jpAddr _ | .callAddr _ | .seVxByte _ _ | .sneVxByte _ _ | .seVxVy _ _ | .ldVxByte _ _
  | .addVxByte _ _ | .ldVxVy _ _ | .orVxVy _ _ | .andVxVy _ _ | .xorVxVy _ _ | .addVxVy _ _ | .subVxVy _ _
  | .shrVxVy _ _ | .subnVxVy _ _ | .shlVxVy _ _ | .sneVxVy _ _ | .ldIAddr _ | .jpV0Addr _ | .rndVxByte _ _
  | .drwVxVyNibble _ _ _ | .skpVx _ | .sknpVx _ | .ldVxDt _ | .ldVxK _ | .ldDtVx _ | .ldStVx _ | .addIVx _
  | .ldFVx _ | .ldBVx _ | .ldMemIVx _ | .ldVxMemI _ => true

end Sys2Proof
end

