-- ==== Sys2Proof/Decode.lean ====
section
/-! DEFINITION. The InstructionDecoder of 30_encoding R62-R76: `decode`, pure and total on 16-bit words, the same on bytes, and the encoder written from the same format table. -/
namespace Sys2Proof

/-- Why bytes are no instruction. -/
inductive DecodeError where
  /-- `DecodeFailure(w)`: the word matches no row of R69 (R75). -/
  | decodeFailure (w : Word)
  /-- fewer than the 2 bytes every instruction has (R63) -/
  | truncated (bytes : Nat)
  deriving DecidableEq, Repr

/-! ## Fields (R64, R66) -/

/-- `g`, w[15:12] (R65). -/
def fieldGroup (w : Word) : Nibble := w.extractLsb' 12 4

/-- `X`, w[11:8]. -/
def fieldX (w : Word) : RegIdx := (w.extractLsb' 8 4).toFin

/-- `Y`, w[7:4]. -/
def fieldY (w : Word) : RegIdx := (w.extractLsb' 4 4).toFin

/-- `N`, w[3:0]. -/
def fieldN (w : Word) : Nibble := w.extractLsb' 0 4

/-- `NN`, w[7:0]. -/
def fieldNN (w : Word) : Byte := w.extractLsb' 0 8

/-- `NNN`, w[11:0]. -/
def fieldNNN (w : Word) : Addr12 := w.extractLsb' 0 12

/-! ## The decoder -/

/-- Group 0 (R70), told apart by the full word. -/
def decodeGroup0 (hw : HaltWords) (w : Word) : Except DecodeError Instr :=
  if w = 0x00E0 then .ok .cls
  else if w = 0x00EE then .ok .ret
  else if hw.contains w then .ok (.halt (fieldNNN w))
  else .error (.decodeFailure w)

/-- Groups 5 and 9 (R71): the low nibble must be 0. -/
def decodeLowZero (w : Word) (i : Instr) : Except DecodeError Instr :=
  if fieldN w = 0 then .ok i else .error (.decodeFailure w)

/-- Group 8 (R72), told apart by the low nibble. -/
def decodeGroup8 (w : Word) : Except DecodeError Instr :=
  match (fieldN w).toNat with
  | 0x0 => .ok (.ldVxVy (fieldX w) (fieldY w))
  | 0x1 => .ok (.orVxVy (fieldX w) (fieldY w))
  | 0x2 => .ok (.andVxVy (fieldX w) (fieldY w))
  | 0x3 => .ok (.xorVxVy (fieldX w) (fieldY w))
  | 0x4 => .ok (.addVxVy (fieldX w) (fieldY w))
  | 0x5 => .ok (.subVxVy (fieldX w) (fieldY w))
  | 0x6 => .ok (.shrVxVy (fieldX w) (fieldY w))
  | 0x7 => .ok (.subnVxVy (fieldX w) (fieldY w))
  | 0xE => .ok (.shlVxVy (fieldX w) (fieldY w))
  | _ => .error (.decodeFailure w)

/-- Group E (R73), told apart by the lower byte. -/
def decodeGroupE (w : Word) : Except DecodeError Instr :=
  match (fieldNN w).toNat with
  | 0x9E => .ok (.skpVx (fieldX w))
  | 0xA1 => .ok (.sknpVx (fieldX w))
  | _ => .error (.decodeFailure w)

/-- Group F (R74), told apart by the lower byte. -/
def decodeGroupF (w : Word) : Except DecodeError Instr :=
  match (fieldNN w).toNat with
  | 0x07 => .ok (.ldVxDt (fieldX w))
  | 0x0A => .ok (.ldVxK (fieldX w))
  | 0x15 => .ok (.ldDtVx (fieldX w))
  | 0x18 => .ok (.ldStVx (fieldX w))
  | 0x1E => .ok (.addIVx (fieldX w))
  | 0x29 => .ok (.ldFVx (fieldX w))
  | 0x33 => .ok (.ldBVx (fieldX w))
  | 0x55 => .ok (.ldMemIVx (fieldX w))
  | 0x65 => .ok (.ldVxMemI (fieldX w))
  | _ => .error (.decodeFailure w)

/-- `decode(w)` (R68, R69): one instruction or `DecodeFailure(w)`.
Its only argument besides the word is the parameter `haltWords` (R9). -/
def decode (hw : HaltWords) (w : Word) : Except DecodeError Instr :=
  match (fieldGroup w).toNat with
  | 0x0 => decodeGroup0 hw w
  | 0x1 => .ok (.jpAddr (fieldNNN w))
  | 0x2 => .ok (.callAddr (fieldNNN w))
  | 0x3 => .ok (.seVxByte (fieldX w) (fieldNN w))
  | 0x4 => .ok (.sneVxByte (fieldX w) (fieldNN w))
  | 0x5 => decodeLowZero w (.seVxVy (fieldX w) (fieldY w))
  | 0x6 => .ok (.ldVxByte (fieldX w) (fieldNN w))
  | 0x7 => .ok (.addVxByte (fieldX w) (fieldNN w))
  | 0x8 => decodeGroup8 w
  | 0x9 => decodeLowZero w (.sneVxVy (fieldX w) (fieldY w))
  | 0xA => .ok (.ldIAddr (fieldNNN w))
  | 0xB => .ok (.jpV0Addr (fieldNNN w))
  | 0xC => .ok (.rndVxByte (fieldX w) (fieldNN w))
  | 0xD => .ok (.drwVxVyNibble (fieldX w) (fieldY w) (fieldN w))
  | 0xE => decodeGroupE w
  | _ => decodeGroupF w

/-- `{hi, lo}`: the byte at PC is the upper byte of the word (20_memory R53).
DESIGN CHOICE of the spec (D2, log entry 8). -/
def wordOfBytes (hi lo : Byte) : Word := hi ++ lo

/-- The bytes of a word in the order memory holds them (R53). -/
def bytesOfWord (w : Word) : List Byte := [w.extractLsb' 8 8, w.extractLsb' 0 8]

/-- The decoder on a byte sequence: it consumes exactly 2 bytes (R63) and answers the rest. -/
def decodeBytes (hw : HaltWords) : List Byte → Except DecodeError (Instr × List Byte)
  | hi :: lo :: rest =>
    match decode hw (wordOfBytes hi lo) with
    | .ok i => .ok (i, rest)
    | .error e => .error e
  | bs => .error (.truncated bs.length)

/-! ## The encoder (the formats of R64 and the patterns of R69) -/

/-- Format `A`: g, NNN. -/
def formA (g : Nibble) (nnn : Addr12) : Word := g ++ nnn

/-- Format `XNN`: g, X, NN. -/
def formXNN (g : Nibble) (x : RegIdx) (nn : Byte) : Word := g ++ (BitVec.ofFin (w := 4) x ++ nn)

/-- Formats `XY` and `XYN`: g, X, Y, then the function nibble or N. -/
def formXY (g : Nibble) (x y : RegIdx) (f : Nibble) : Word :=
  g ++ (BitVec.ofFin (w := 4) x ++ (BitVec.ofFin (w := 4) y ++ f))

/-- Format `Xff`: g, X, function byte. -/
def formXff (g : Nibble) (x : RegIdx) (ff : Byte) : Word := formXNN g x ff

/-- The word of an instruction (R69; opcode_table.json). -/
def encode : Instr → Word
  | .halt nnn => formA 0x0 nnn
  | .cls => 0x00E0
  | .ret => 0x00EE
  | .jpAddr nnn => formA 0x1 nnn
  | .callAddr nnn => formA 0x2 nnn
  | .seVxByte x nn => formXNN 0x3 x nn
  | .sneVxByte x nn => formXNN 0x4 x nn
  | .seVxVy x y => formXY 0x5 x y 0x0
  | .ldVxByte x nn => formXNN 0x6 x nn
  | .addVxByte x nn => formXNN 0x7 x nn
  | .ldVxVy x y => formXY 0x8 x y 0x0
  | .orVxVy x y => formXY 0x8 x y 0x1
  | .andVxVy x y => formXY 0x8 x y 0x2
  | .xorVxVy x y => formXY 0x8 x y 0x3
  | .addVxVy x y => formXY 0x8 x y 0x4
  | .subVxVy x y => formXY 0x8 x y 0x5
  | .shrVxVy x y => formXY 0x8 x y 0x6
  | .subnVxVy x y => formXY 0x8 x y 0x7
  | .shlVxVy x y => formXY 0x8 x y 0xE
  | .sneVxVy x y => formXY 0x9 x y 0x0
  | .ldIAddr nnn => formA 0xA nnn
  | .jpV0Addr nnn => formA 0xB nnn
  | .rndVxByte x nn => formXNN 0xC x nn
  | .drwVxVyNibble x y n => formXY 0xD x y n
  | .skpVx x => formXff 0xE x 0x9E
  | .sknpVx x => formXff 0xE x 0xA1
  | .ldVxDt x => formXff 0xF x 0x07
  | .ldVxK x => formXff 0xF x 0x0A
  | .ldDtVx x => formXff 0xF x 0x15
  | .ldStVx x => formXff 0xF x 0x18
  | .addIVx x => formXff 0xF x 0x1E
  | .ldFVx x => formXff 0xF x 0x29
  | .ldBVx x => formXff 0xF x 0x33
  | .ldMemIVx x => formXff 0xF x 0x55
  | .ldVxMemI x => formXff 0xF x 0x65

/-! ## The host's reading of one table word -/

/-- The word whose low `nbits` bits, numbered as opcode_table.json numbers them, are `w`; every higher bit is 0. -/
def tableWord (nbits w : Nat) : Word := BitVec.ofNat 16 (w % 2 ^ nbits)

/-- The instruction the decoder reads from the bytes of `tableWord nbits w`, under the default `haltWords` (log entry 9). -/
def decodeTableWord (nbits w : Nat) : Option Instr :=
  match decodeBytes .standard (bytesOfWord (tableWord nbits w)) with
  | .ok (i, _) => some i
  | .error _ => none

end Sys2Proof
end

