-- ==== Sys2Proof/Machine/Fetch.lean ====
section
/-! DEFINITION. What a step does before it executes (30_encoding R62; 60_exceptions R125-R127): whether it is enabled, the fetch of two bytes, the decode. -/
namespace Sys2Proof.Machine

/-- Why `step` has no enabled transition, if it has none (R125, R126). -/
def State.stepRefused (s : State) : Option Refusal :=
  match s.fault with
  | some _ => some .stepAfterFault
  | none => if s.running then none else some .stepAfterHalt

/-- The bytes at PC and PC + 1 as a word, PC + 1 an exact natural number, the fault at PC first (R52, R53, R62, R127). -/
def State.fetchWord (s : State) : Except Fault Word :=
  match s.fetchByte s.pc.toNat with
  | .error f => .error f
  | .ok hi =>
    match s.fetchByte (s.pc.toNat + 1) with
    | .error f => .error f
    | .ok lo => .ok (wordOfBytes hi lo)

/-- Decode a fetched word, or raise `DecodeFailure(w)` (R68). -/
def State.decodeWord (s : State) (w : Word) : Except Fault Instr :=
  match decode s.params.haltWords w with
  | .ok i => .ok i
  | .error _ => .error (.decodeFailure w s.pc)

/-- Fetch, then decode (R127). -/
def State.fetchInstr (s : State) : Except Fault Instr :=
  match s.fetchWord with
  | .error f => .error f
  | .ok w => s.decodeWord w

/-- Put a byte into the program region, for `withFetchWord`; elsewhere nothing is stored (log entry 9). -/
def State.placeByte (s : State) (a : Nat) (b : Byte) : State := if valid a then s.setByte a b else s

end Sys2Proof.Machine
end

