-- ==== Sys2Proof/Machine/Step.lean ====
section
/-! DEFINITION. `step`: one call of the host's `step()` (30_encoding R62), and the placing of one instruction where it fetches. -/
namespace Sys2Proof.Machine

/-- `Step()` (R62): refused after HALT or a fault, else fetch, decode, execute. `exec` ends with the PC advance. -/
def step (s : State) : Host.Outcome State Fault Refusal :=
  match s.stepRefused with
  | some r => .refused r
  | none => orRaise s.fetchInstr (fun i => exec i s)

/-- `s` with the instruction word of `tableWord nbits w` at PC and PC + 1, high byte first (R53; log entry 9). -/
def State.withFetchWord (s : State) (nbits w : Nat) : State :=
  (s.placeByte s.pc.toNat ((tableWord nbits w).extractLsb' 8 8)).placeByte (s.pc.toNat + 1)
    ((tableWord nbits w).extractLsb' 0 8)

end Sys2Proof.Machine
end

