-- ==== Sys2Proof/Machine/HostInterface.lean ====
section
/-! DEFINITION. The host operations that are not `step` (20_memory R44; 60_exceptions R122, R123, R132-R138; 70_reset R146): construct, tick, key events, the display protocol, the reads. -/
namespace Sys2Proof.Machine

/-- The ExecutionUnit's reset values and an AddressSpace with no image, for given parameters and `resetRegs`
(10_state R40; 70_reset R146). `v` and `i` are the values of V0-VF and I, which the spec leaves to `resetRegs`. -/
def State.resetWith (p : Params) (v : Vector Byte 16) (i : Word) : State :=
  { State.reset with params := p, v := v, i := i }

/-- `construct(img)` (R44, R146; D28): the image "copied verbatim" at 0x200; refuses an image longer than 0xE00 bytes. -/
def construct (p : Params) (v : Vector Byte 16) (i : Word) (img : List Byte) : Result :=
  if img.length ≤ 0xE00 then .next ((State.resetWith p v i).setBytes 0x200 img)
  else .refused (.imageTooLong img.length)

/-- One timer of `tick()`: floor-clamped at zero (R132). -/
def countDown (b : Byte) : Byte := if b = 0 then 0 else b - 1

/-- `tick()` (R132): enabled in every state, after HALT too. -/
def State.tick (s : State) : State := { s with dt := countDown s.dt, st := countDown s.st }

/-- `key_event(k, pressed)` (R134; D24): refuses a key outside 0-15. -/
def State.keyEvent (s : State) (k : Nat) (pressed : Bool) : Result :=
  if h : k < 16 then .next { s with keys := s.keys.set k pressed }
  else .refused (.keyOutOfRange k)

/-- `acknowledge_display()` (R135). -/
def State.acknowledgeDisplay (s : State) : State := { s with dirty := false }

/-- `running()` (R36, R133). -/
def State.isRunning (s : State) : Bool := s.running

/-- `display_updated()` (R135). -/
def State.displayUpdated (s : State) : Bool := s.dirty

/-- `delay_issued()` (R137). -/
def State.delayIssued (s : State) : Bool := s.dt ≠ 0

/-- `sound_issued()` (R137). -/
def State.soundIssued (s : State) : Bool := s.st ≠ 0

/-- `framebuffer()` (R136): 2048 bytes valued 0 or 1, row-major. -/
def State.framebuffer (s : State) : List Byte :=
  s.fb.toList.flatMap (fun row => row.toList.map (fun b => if b then 1 else 0))

/-- The names `register_state` takes (R138). -/
inductive RegName where
  | v (x : RegIdx)
  | i
  | pc
  | sp
  | dt
  | st
  deriving DecidableEq, Repr

/-- `register_state(name)` (R138; D31): 16 bits, zero-extended. No register is unset (log entry 1). -/
def State.registerState (s : State) : RegName → Word
  | .v x => zextByte (s.reg x)
  | .i => s.i
  | .pc => s.pc
  | .sp => BitVec.ofNat 16 s.sp.val
  | .dt => zextByte s.dt
  | .st => zextByte s.st

/-- The code of a fault record (R122, R123; D29: the numbers are the spec's own). -/
def faultCode : Fault → Nat
  | .outOfRangeAccess _ _ _ => 1
  | .decodeFailure _ _ => 2
  | .stackOverflow _ => 3
  | .stackUnderflow _ => 4
  | .unsetRead _ _ => 5
  | .operandOutOfRange _ _ => 6

/-- The name of a fault record (R122, R123). -/
def faultName : Fault → String
  | .outOfRangeAccess _ _ _ => "OutOfRangeAccess"
  | .decodeFailure _ _ => "DecodeFailure"
  | .stackOverflow _ => "StackOverflow"
  | .stackUnderflow _ => "StackUnderflow"
  | .unsetRead _ _ => "UnsetRead"
  | .operandOutOfRange _ _ => "OperandOutOfRange"

/-- The `pc` of a fault record (R122). -/
def faultPc : Fault → Word
  | .outOfRangeAccess _ _ pc => pc
  | .decodeFailure _ pc => pc
  | .stackOverflow pc => pc
  | .stackUnderflow pc => pc
  | .unsetRead _ pc => pc
  | .operandOutOfRange _ pc => pc

end Sys2Proof.Machine
end

