-- ==== Sys2Proof/Machine/Session.lean ====
section
/-! DEFINITION. A session (60_exceptions R121-R126, R133, R139): the host's operations, one at a time between steps, in any order, and the state a fault leaves. -/
namespace Sys2Proof.Machine

/-- The state a faulting step leaves but for `fault` and PC: unspecified (R125, U3).
FREE VALUE (D21, log entry 19): it has no body, so nothing can be proved of it. -/
opaque stateAfterFault : State → Fault → State

/-- After a fault (R124, R125): the record is in `fault`, PC is the faulting step's, the session's parameters stay,
and everything else is the free value. -/
def State.recordFault (s : State) (f : Fault) : State :=
  { stateAfterFault s f with pc := s.pc, fault := some f, params := s.params }

/-- The host operations that may change the state after construction (R133). -/
inductive HostOp where
  | step
  | tick
  | keyEvent (k : Nat) (pressed : Bool)
  | acknowledgeDisplay
  deriving DecidableEq, Repr

/-- A `step()` as the host sees it: a fault is recorded, and later steps are refused (R124, R125). -/
def State.hostStep (s : State) : Result :=
  match step s with
  | .next t => .next t
  | .fault f => .next (s.recordFault f)
  | .refused r => .refused r

/-- One atomic host operation (R133, R139). -/
def State.apply (s : State) : HostOp → Result
  | .step => s.hostStep
  | .tick => .next s.tick
  | .keyEvent k pressed => s.keyEvent k pressed
  | .acknowledgeDisplay => .next s.acknowledgeDisplay

/-- A schedule of host operations; it ends early at one that the model refuses. -/
def State.session (s : State) : List HostOp → Result
  | [] => .next s
  | op :: ops =>
    match s.apply op with
    | .next t => t.session ops
    | .fault f => .fault f
    | .refused r => .refused r

end Sys2Proof.Machine
end

