-- ==== Sys2Proof/Safety.lean ====
section
/-! DEFINITION. What counts as a safe run and a normal end (60_exceptions R145), and the words the statements use: what an instruction may write, where it stores, when it transfers control. -/
namespace Sys2Proof.Machine

/-- A step from here raises no fault (R121). -/
def State.StepIsSafe (s : State) : Prop := ∀ f, step s ≠ .fault f

/-- The normal end of a run (R145). -/
def State.NormalEnd (s : State) : Prop := s.running = false ∧ s.fault = none

/-- The end of a run at a fault (R145). -/
def State.FaultEnd (s : State) : Prop := s.fault ≠ none

/-- `step` is enabled (R62): running, and no fault in the session. -/
def State.Enabled (s : State) : Prop := s.running = true ∧ s.fault = none

/-- The invariant of memory: its canonical form, which lists nothing outside the program region. -/
def State.MemoryCanonical (s : State) : Prop := Memory.wf s.params s.mem

/-- JP, JP V0, CALL and RET (R88). -/
def transfersControl : Instr → Bool
  | .jpAddr _ | .callAddr _ | .jpV0Addr _ | .ret => true
  | _ => false

/-- The six skips (R83-R86, R114, R115). -/
def isSkip : Instr → Bool
  | .seVxByte _ _ | .sneVxByte _ _ | .seVxVy _ _ | .sneVxVy _ _ | .skpVx _ | .sknpVx _ => true
  | _ => false

/-- The V registers an instruction may write: its destination, and VF where R19 says so. -/
def writesReg (r : RegIdx) : Instr → Bool
  | .ldVxByte x _ | .addVxByte x _ | .ldVxVy x _ | .orVxVy x _ | .andVxVy x _ | .xorVxVy x _
  | .rndVxByte x _ | .ldVxDt x | .ldVxK x => r = x
  | .addVxVy x _ | .subVxVy x _ | .subnVxVy x _ | .shrVxVy x _ | .shlVxVy x _ => r = x || r = 15
  | .drwVxVyNibble _ _ _ => r = 15
  | .ldVxMemI x => r ≤ x
  | _ => false

/-- The instructions that may write I, FX55 and FX65 only when `loadStoreIncrementsI` (R25). -/
def writesI (p : Params) : Instr → Bool
  | .ldIAddr _ | .addIVx _ | .ldFVx _ => true
  | .ldMemIVx _ | .ldVxMemI _ => p.loadStoreIncrementsI
  | _ => false

/-- How many bytes an instruction stores, the first at the address in I (R106, R107); every other stores none. -/
def storeLength : Instr → Nat
  | .ldBVx _ => 3
  | .ldMemIVx x => x.val + 1
  | _ => 0

/-- The addresses an instruction stores to: I, I + 1, ... (R52). -/
def StoresTo (i : Instr) (s : State) (a : Nat) : Prop := s.indexAddr ≤ a ∧ a < s.indexAddr + storeLength i

/-- Each of the `n` addresses from `a` on may be written (R50). -/
def AllWritable (a n : Nat) : Prop := ∀ k < n, 0x200 ≤ a + k ∧ a + k ≤ 0xFFF

/-- Each of the `n` addresses from `a` on may be read and holds a defined byte (R49). -/
def State.AllReadable (s : State) (a n : Nat) : Prop :=
  ∀ k < n, (a + k ≤ 0x04F ∨ (0x200 ≤ a + k ∧ a + k ≤ 0xFFF)) ∧ ∃ b, s.byteAt (a + k) = some b

/-- The pixels the set bits of a sprite cover, its first row at row coordinate `y` and its left edge at column
coordinate `x`; bit 7 is the leftmost column and both axes wrap (R110, R111). -/
def SpriteCovers (rows : List Byte) (x y : Nat) (r : Fin 32) (c : Fin 64) : Prop :=
  ∃ k < rows.length, ∃ col < 8,
    (rows.getD k 0).getLsbD (7 - col) = true ∧ (y + k) % 32 = r.val ∧ (x + col) % 64 = c.val

end Sys2Proof.Machine
end

