-- ==== Sys2Proof/Certificates/Slice0/Obligations.lean ====
section
/-! DEFINITION. The statements for the provers. Each docstring names the rule of spec/ it formalises and, where the rule is the spec's own decision (a row Dn of 92_eei_decisions.md), a passage of general knowledge or a choice of this model, says so and names the log entry. Throughout, every register holds a value (DESIGN CHOICE, log entry 1): the UnsetRead of a register that many rules list as their exception does not arise. -/

section
open Sys2Proof Sys2Proof.Machine

/-! ## Encoding (30_encoding) -/

/-- Words written out from the opcode map of R69 decode to the instructions they stand for. The patterns are general
knowledge of the standard set (D34, log entry 20) and the HALT row is D5 (log entry 5). -/
def Obligations.OpcodeMapWordsDecode : Prop :=
  decode .standard 0x0123 = .ok (.halt 0x123) ∧
  decode .standard 0x00E0 = .ok .cls ∧
  decode .standard 0x00EE = .ok .ret ∧
  decode .standard 0x2ABC = .ok (.callAddr 0xABC) ∧
  decode .standard 0x3A5C = .ok (.seVxByte 0xA 0x5C) ∧
  decode .standard 0x8AB5 = .ok (.subVxVy 0xA 0xB) ∧
  decode .standard 0x8ABE = .ok (.shlVxVy 0xA 0xB) ∧
  decode .standard 0xDAB7 = .ok (.drwVxVyNibble 0xA 0xB 0x7) ∧
  decode .standard 0xEA9E = .ok (.skpVx 0xA) ∧
  decode .standard 0xFA33 = .ok (.ldBVx 0xA) ∧
  decode .standard 0x8AB8 = .error (.decodeFailure 0x8AB8) ∧
  decode .standard 0x5AB1 = .error (.decodeFailure 0x5AB1)

/-- The fields of R66: each is those bits of the word, X and Y and N nibbles, NN a byte, NNN twelve bits. The width and
place of N are general knowledge (G7, log entry 20). -/
def Obligations.FieldsAreTheirBits : Prop :=
  ∀ w : Word,
    (fieldX w).val = w.toNat / 256 % 16 ∧
    (fieldY w).val = w.toNat / 16 % 16 ∧
    (fieldN w).toNat = w.toNat % 16 ∧
    (fieldNN w).toNat = w.toNat % 256 ∧
    (fieldNNN w).toNat = w.toNat % 4096 ∧
    (fieldGroup w).toNat = w.toNat / 4096

/-- Decoding the encoding of any well-formed instruction, with every operand at every value its field admits, gives it
back, under every `haltWords` (R64, R66, R69; the patterns are D34, log entry 20). -/
def Obligations.DecodeInvertsEncode : Prop :=
  ∀ (hw : HaltWords) (i : Instr), i.wellFormed hw = true → decode hw (encode i) = .ok i

/-- A word that decodes to an instruction is that instruction's encoding, and the instruction is well-formed: no two
words decode alike and no bit is dropped (R68, R69; D34, log entry 20). -/
def Obligations.EncodeInvertsDecode : Prop :=
  ∀ (hw : HaltWords) (w : Word) (i : Instr), decode hw w = .ok i → encode i = w ∧ i.wellFormed hw = true

/-- The illegal words are exactly those of R75 (R70 to R74; which function nibbles and bytes are used is general
knowledge, G9, log entry 20, and `haltWords` is D5, log entry 5). -/
def Obligations.IllegalWordsAreThoseOfR75 : Prop :=
  ∀ (hw : HaltWords) (w : Word),
    decode hw w = .error (.decodeFailure w) ↔
      (w.toNat / 4096 = 0x0 ∧ w.toNat ≠ 0x00E0 ∧ w.toNat ≠ 0x00EE ∧ hw.contains w = false) ∨
      (w.toNat / 4096 = 0x5 ∧ w.toNat % 16 ≠ 0) ∨
      (w.toNat / 4096 = 0x9 ∧ w.toNat % 16 ≠ 0) ∨
      (w.toNat / 4096 = 0x8 ∧ w.toNat % 16 ∈ [0x8, 0x9, 0xA, 0xB, 0xC, 0xD, 0xF]) ∨
      (w.toNat / 4096 = 0xE ∧ w.toNat % 256 ∉ [0x9E, 0xA1]) ∨
      (w.toNat / 4096 = 0xF ∧ w.toNat % 256 ∉ [0x07, 0x0A, 0x15, 0x18, 0x1E, 0x29, 0x33, 0x55, 0x65])

/-! ## The step (30_encoding R62; 60_exceptions) -/

/-- A step runs the decoded instruction: with the bytes at PC and PC + 1 fetchable and the word with the byte at PC as its
upper half decoding to `i`, the step is `exec i`, which ends with the PC advance (R62; the byte order is D2, log entry 8,
and the fetch check D6, log entry 11). -/
def Obligations.StepExecutesTheDecodedInstruction : Prop :=
  ∀ (s : State) (hi lo : Byte) (w : Word) (i : Instr), s.Enabled →
    0x200 ≤ s.pc.toNat → s.pc.toNat + 1 ≤ 0xFFF →
    s.byteAt s.pc.toNat = some hi → s.byteAt (s.pc.toNat + 1) = some lo →
    w.toNat = 256 * hi.toNat + lo.toNat → decode s.params.haltWords w = .ok i →
    step s = exec i s

/-- After a fault, and after HALT, a step is refused (R125, R126; D21, D22, log entries 19 and 21). -/
def Obligations.StepAfterHaltOrFaultIsRefused : Prop :=
  ∀ s : State,
    (s.running = false → s.fault = none → step s = .refused .stepAfterHalt) ∧
    (∀ f, s.fault = some f → step s = .refused .stepAfterFault)

/-- The faults of fetch and decode, in the order of R127: the byte at PC, the byte at PC + 1 (an exact natural number),
the decode. The fetch check is D6 (log entry 11), unset bytes D20 (log entry 4), the order D33 (log entry 22). -/
def Obligations.FetchAndDecodeFaultInOrder : Prop :=
  ∀ s : State, s.Enabled →
    (¬ (0x200 ≤ s.pc.toNat ∧ s.pc.toNat ≤ 0xFFF) →
      step s = .fault (.outOfRangeAccess s.pc.toNat .fetch s.pc)) ∧
    (0x200 ≤ s.pc.toNat ∧ s.pc.toNat ≤ 0xFFF → s.byteAt s.pc.toNat = none →
      step s = .fault (.unsetRead s.pc.toNat s.pc)) ∧
    (∀ hi, s.pc.toNat = 0xFFF → s.byteAt s.pc.toNat = some hi →
      step s = .fault (.outOfRangeAccess 0x1000 .fetch s.pc)) ∧
    (∀ hi, 0x200 ≤ s.pc.toNat ∧ s.pc.toNat ≤ 0xFFE → s.byteAt s.pc.toNat = some hi →
      s.byteAt (s.pc.toNat + 1) = none → step s = .fault (.unsetRead (s.pc.toNat + 1) s.pc)) ∧
    (∀ (hi lo : Byte) (w : Word), 0x200 ≤ s.pc.toNat ∧ s.pc.toNat ≤ 0xFFE → s.byteAt s.pc.toNat = some hi →
      s.byteAt (s.pc.toNat + 1) = some lo → w.toNat = 256 * hi.toNat + lo.toNat →
      decode s.params.haltWords w = .error (.decodeFailure w) → step s = .fault (.decodeFailure w s.pc))

/-- Every fault of a step carries the PC the step began with (R122). -/
def Obligations.FaultRecordCarriesThePcOfTheStep : Prop :=
  ∀ (s : State) (f : Fault), step s = .fault f → faultPc f = s.pc

/-- Every instruction, in every state, completes or raises a fault that the table of R123 lists for it, and none is
refused: read faults and unset reads in DRW and LD Vx, [I]; write faults in LD B and LD [I]; overflow in CALL with SP = 16;
underflow in RET with SP = 0; an operand out of range in SKP, SKNP and LD F with V[X] > 15 (D4, D15, D16, D20; log
entries 4, 12, 13). -/
def Obligations.InstructionsCompleteOrFaultAsListed : Prop :=
  ∀ (i : Instr) (s : State),
    (∃ t, exec i s = .next t) ∨
    (∃ f, exec i s = .fault f ∧
      ((∃ a, (f = .outOfRangeAccess a .read s.pc ∨ f = .unsetRead a s.pc) ∧
        ((∃ x y n, i = .drwVxVyNibble x y n) ∨ ∃ x, i = .ldVxMemI x)) ∨
      (∃ a, f = .outOfRangeAccess a .write s.pc ∧ ((∃ x, i = .ldBVx x) ∨ ∃ x, i = .ldMemIVx x)) ∨
      (f = .stackOverflow s.pc ∧ s.sp.val = 16 ∧ ∃ nnn, i = .callAddr nnn) ∨
      (f = .stackUnderflow s.pc ∧ s.sp.val = 0 ∧ i = .ret) ∨
      (∃ x, f = .operandOutOfRange (s.reg x) s.pc ∧ 15 < (s.reg x).toNat ∧
        (i = .skpVx x ∨ i = .sknpVx x ∨ i = .ldFVx x))))

/-- A step that completes fetched its instruction from the program region (R24, R51; D6, log entry 11). -/
def Obligations.InstructionsRunOnlyFromTheProgramRegion : Prop :=
  ∀ s t : State, step s = .next t → 0x200 ≤ s.pc.toNat ∧ s.pc.toNat ≤ 0xFFE

/-! ## Control flow (40_control_flow) -/

/-- HALT (R79, R126): clears `running`, advances PC by 2, and the next step is refused (its encoding is D5, log entry 5). -/
def Obligations.HaltStopsTheMachine : Prop :=
  ∀ (nnn : Addr12) (s : State), ∃ t, exec (.halt nnn) s = .next t ∧ t.running = false ∧ t.pc = s.pc + 2 ∧
    (s.fault = none → t.NormalEnd ∧ step t = .refused .stepAfterHalt)

/-- CALL (R82): pushes PC + 2 and jumps, or overflows with 16 entries. That the pushed value is PC + 2 is D3
(log entry 15). -/
def Obligations.CallPushesAndJumps : Prop :=
  ∀ (nnn : Addr12) (s : State),
    (s.sp.val < 16 → ∃ t, exec (.callAddr nnn) s = .next t ∧ t.pc.toNat = nnn.toNat ∧ t.sp.val = s.sp.val + 1 ∧
      t.stack[s.sp.val]? = some (s.pc + 2) ∧ ∀ k, k ≠ s.sp.val → t.stack[k]? = s.stack[k]?) ∧
    (s.sp.val = 16 → exec (.callAddr nnn) s = .fault (.stackOverflow s.pc))

/-- RET (R80): pops into PC, or underflows on an empty stack, which is D4 (log entry 12). -/
def Obligations.RetPopsIntoPc : Prop :=
  ∀ s : State,
    (s.sp.val ≠ 0 → ∃ t, exec .ret s = .next t ∧ s.stack[s.sp.val - 1]? = some t.pc ∧ t.sp.val = s.sp.val - 1 ∧
      t.stack = s.stack) ∧
    (s.sp.val = 0 → exec .ret s = .fault (.stackUnderflow s.pc))

/-- CALL and the matching RET (R88): from any state with the stack as CALL left it, RET sets PC to the address after the
CALL and SP to its value before (D3, log entry 15). -/
def Obligations.CallThenRetReturnsAfterTheCall : Prop :=
  ∀ (nnn : Addr12) (s t u : State), exec (.callAddr nnn) s = .next t → u.stack = t.stack → u.sp = t.sp →
    ∃ w, exec .ret u = .next w ∧ w.pc = s.pc + 2 ∧ w.sp = s.sp

/-- JP and JP V0 (R81, R87): PC is NNN, or the full sum NNN + V0, not masked to 12 bits (D7, log entry 11). -/
def Obligations.JumpsSetThePcUnmasked : Prop :=
  ∀ (nnn : Addr12) (s : State),
    (∃ t, exec (.jpAddr nnn) s = .next t ∧ t.pc.toNat = nnn.toNat) ∧
    (∃ t, exec (.jpV0Addr nnn) s = .next t ∧ t.pc.toNat = nnn.toNat + (s.reg 0).toNat)

/-- The four skips on values (R83 to R86, R23): PC advances by 4 when the condition holds and by 2 otherwise. -/
def Obligations.ValueSkipsAdvanceByFourOrTwo : Prop :=
  ∀ (x y : RegIdx) (nn : Byte) (s : State),
    (∃ t, exec (.seVxByte x nn) s = .next t ∧
      t.pc.toNat = (s.pc.toNat + if s.reg x = nn then 4 else 2) % 65536) ∧
    (∃ t, exec (.sneVxByte x nn) s = .next t ∧
      t.pc.toNat = (s.pc.toNat + if s.reg x = nn then 2 else 4) % 65536) ∧
    (∃ t, exec (.seVxVy x y) s = .next t ∧
      t.pc.toNat = (s.pc.toNat + if s.reg x = s.reg y then 4 else 2) % 65536) ∧
    (∃ t, exec (.sneVxVy x y) s = .next t ∧
      t.pc.toNat = (s.pc.toNat + if s.reg x = s.reg y then 2 else 4) % 65536)

/-- How far PC moves (R23): a control transfer aside, an instruction advances PC by 2, a skip by 2 or 4, and LD Vx, K by 2
or, with no key pressed, by 0 (that last is D14, log entry 14). -/
def Obligations.PcAdvancesByTheRule : Prop :=
  ∀ (i : Instr) (s t : State), exec i s = .next t → transfersControl i = false →
    t.pc = s.pc + 2 ∨ (isSkip i = true ∧ t.pc = s.pc + 4) ∨
    ((∃ x, i = .ldVxK x) ∧ (∀ k, s.key k = false) ∧ t.pc = s.pc)

/-! ## Registers and flags (41_alu) -/

/-- LD Vx, byte; LD Vx, Vy; LD Vx, DT (R89, R91, R116): the destination takes the operand. LD Vx, DT is general knowledge
(D35, log entry 20). -/
def Obligations.LoadsCopyTheirOperand : Prop :=
  ∀ (x y : RegIdx) (nn : Byte) (s : State),
    (∃ t, exec (.ldVxByte x nn) s = .next t ∧ t.reg x = nn ∧ t.pc = s.pc + 2) ∧
    (∃ t, exec (.ldVxVy x y) s = .next t ∧ t.reg x = s.reg y ∧ t.pc = s.pc + 2) ∧
    (∃ t, exec (.ldVxDt x) s = .next t ∧ t.reg x = s.dt ∧ t.pc = s.pc + 2)

/-- ADD Vx, byte (R90): the sum mod 256; the carry is lost and no other register, VF among them, is written. -/
def Obligations.AddByteWrapsWithoutAFlag : Prop :=
  ∀ (x : RegIdx) (nn : Byte) (s : State), ∃ t, exec (.addVxByte x nn) s = .next t ∧
    (t.reg x).toNat = ((s.reg x).toNat + nn.toNat) % 256 ∧ (∀ r, r ≠ x → t.reg r = s.reg r) ∧ t.pc = s.pc + 2

/-- OR, AND, XOR (R92 to R94): bit by bit into V[X]; no other register, VF among them, is written. -/
def Obligations.LogicWorksBitByBit : Prop :=
  ∀ (x y : RegIdx) (s : State),
    (∃ t, exec (.orVxVy x y) s = .next t ∧
      (∀ k < 8, (t.reg x).getLsbD k = ((s.reg x).getLsbD k || (s.reg y).getLsbD k)) ∧
      (∀ r, r ≠ x → t.reg r = s.reg r) ∧ t.pc = s.pc + 2) ∧
    (∃ t, exec (.andVxVy x y) s = .next t ∧
      (∀ k < 8, (t.reg x).getLsbD k = ((s.reg x).getLsbD k && (s.reg y).getLsbD k)) ∧
      (∀ r, r ≠ x → t.reg r = s.reg r) ∧ t.pc = s.pc + 2) ∧
    (∃ t, exec (.xorVxVy x y) s = .next t ∧
      (∀ k < 8, (t.reg x).getLsbD k = ((s.reg x).getLsbD k != (s.reg y).getLsbD k)) ∧
      (∀ r, r ≠ x → t.reg r = s.reg r) ∧ t.pc = s.pc + 2)

/-- ADD Vx, Vy (R95): VF ends as the carry out of bit 7; unless X is F, V[X] is the sum mod 256. The operands are their
values from before the instruction, VF's among them. -/
def Obligations.AddRegistersCarriesIntoVF : Prop :=
  ∀ (x y : RegIdx) (s : State), ∃ t, exec (.addVxVy x y) s = .next t ∧
    (t.reg 15).toNat = (if 255 < (s.reg x).toNat + (s.reg y).toNat then 1 else 0) ∧
    (x ≠ 15 → (t.reg x).toNat = ((s.reg x).toNat + (s.reg y).toNat) % 256) ∧
    (∀ r, r ≠ x → r ≠ 15 → t.reg r = s.reg r) ∧ t.pc = s.pc + 2

/-- SUB Vx, Vy (R96), with `f` = 1 if V[X] >= V[Y], else 0: the flag is written first and the difference reads V[X] and
V[Y] after it, so each case with X or Y equal to F comes out as the corner cases of R96 say. -/
def Obligations.SubWritesTheFlagFirst : Prop :=
  ∀ (x y : RegIdx) (s : State) (f : Nat), f = (if (s.reg y).toNat ≤ (s.reg x).toNat then 1 else 0) →
    ∃ t, exec (.subVxVy x y) s = .next t ∧ t.pc = s.pc + 2 ∧ (∀ r, r ≠ x → r ≠ 15 → t.reg r = s.reg r) ∧
      (x ≠ 15 → (t.reg 15).toNat = f) ∧
      (x ≠ 15 → y ≠ 15 → (t.reg x).toNat = ((s.reg x).toNat + 256 - (s.reg y).toNat) % 256) ∧
      (x ≠ 15 → y = 15 → (t.reg x).toNat = ((s.reg x).toNat + 256 - f) % 256) ∧
      (x = 15 → y ≠ 15 → (t.reg 15).toNat = (f + 256 - (s.reg y).toNat) % 256) ∧
      (x = 15 → y = 15 → (t.reg 15).toNat = 0)

/-- SUBN Vx, Vy (R98), with `f` = 1 if V[Y] >= V[X], else 0: the flag first, the difference V[Y] - V[X] after it, and the
corner cases of R98. -/
def Obligations.SubnWritesTheFlagFirst : Prop :=
  ∀ (x y : RegIdx) (s : State) (f : Nat), f = (if (s.reg x).toNat ≤ (s.reg y).toNat then 1 else 0) →
    ∃ t, exec (.subnVxVy x y) s = .next t ∧ t.pc = s.pc + 2 ∧ (∀ r, r ≠ x → r ≠ 15 → t.reg r = s.reg r) ∧
      (x ≠ 15 → (t.reg 15).toNat = f) ∧
      (x ≠ 15 → y ≠ 15 → (t.reg x).toNat = ((s.reg y).toNat + 256 - (s.reg x).toNat) % 256) ∧
      (x ≠ 15 → y = 15 → (t.reg x).toNat = (f + 256 - (s.reg x).toNat) % 256) ∧
      (x = 15 → y ≠ 15 → (t.reg 15).toNat = ((s.reg y).toNat + 256 - f) % 256) ∧
      (x = 15 → y = 15 → (t.reg 15).toNat = 0)

/-- SHR Vx {, Vy} (R97) for either value of `shiftSource` (D11, log entry 5): VF takes bit 0 of the source, then V[X] the
source re-read and halved. The order when the source or X is F is D12 (log entry 16). -/
def Obligations.ShrHalvesAndKeepsTheLowBit : Prop :=
  ∀ (x y src : RegIdx) (s : State), src = (if s.params.shiftSource = .x then x else y) →
    ∃ t, exec (.shrVxVy x y) s = .next t ∧ t.pc = s.pc + 2 ∧ (∀ r, r ≠ x → r ≠ 15 → t.reg r = s.reg r) ∧
      (x ≠ 15 → (t.reg 15).toNat = (s.reg src).toNat % 2) ∧
      (src ≠ 15 → (t.reg x).toNat = (s.reg src).toNat / 2) ∧
      (src = 15 → (t.reg x).toNat = 0)

/-- SHL Vx {, Vy} (R99) for either value of `shiftSource` (D11, log entry 5): VF takes bit 7 of the source, then V[X] the
source re-read and doubled mod 256. The order when the source or X is F is D12 (log entry 16). -/
def Obligations.ShlDoublesAndKeepsTheHighBit : Prop :=
  ∀ (x y src : RegIdx) (s : State), src = (if s.params.shiftSource = .x then x else y) →
    ∃ t, exec (.shlVxVy x y) s = .next t ∧ t.pc = s.pc + 2 ∧ (∀ r, r ≠ x → r ≠ 15 → t.reg r = s.reg r) ∧
      (x ≠ 15 → (t.reg 15).toNat = (s.reg src).toNat / 128) ∧
      (src ≠ 15 → (t.reg x).toNat = 2 * (s.reg src).toNat % 256) ∧
      (src = 15 → (t.reg x).toNat = 2 * ((s.reg src).toNat / 128))

/-- RND Vx, byte (R100, R101): V[X] is the session's next draw, masked; exactly one draw is taken, and no other
instruction takes one. The draw is a free value (D23, log entry 6), so this holds for every sequence. -/
def Obligations.RndTakesTheOneDraw : Prop :=
  (∀ (x : RegIdx) (nn : Byte) (s : State), ∃ t, exec (.rndVxByte x nn) s = .next t ∧
    t.reg x = Config.rng s.draws &&& nn ∧ t.draws = s.draws + 1 ∧ t.pc = s.pc + 2) ∧
  (∀ (i : Instr) (s t : State), exec i s = .next t → (∀ x nn, i ≠ .rndVxByte x nn) → t.draws = s.draws)

/-! ## I and memory (42_index_memory, 20_memory) -/

/-- LD I, addr and ADD I, Vx (R103, R104): I is NNN, or the sum mod 65536; no V register, VF among them, is written. Both
are general knowledge (D9, D35; log entries 17 and 20). -/
def Obligations.IndexLoadsAndAdds : Prop :=
  ∀ (nnn : Addr12) (x : RegIdx) (s : State),
    (∃ t, exec (.ldIAddr nnn) s = .next t ∧ t.i.toNat = nnn.toNat ∧ (∀ r, t.reg r = s.reg r) ∧ t.pc = s.pc + 2) ∧
    (∃ t, exec (.addIVx x) s = .next t ∧ t.i.toNat = (s.i.toNat + (s.reg x).toNat) % 65536 ∧
      (∀ r, t.reg r = s.reg r) ∧ t.pc = s.pc + 2)

/-- LD F, Vx (R105): I is 5 times the digit in V[X]; a value above 15 raises OperandOutOfRange (D16, log entry 13). -/
def Obligations.FontAddressIsFiveTimesTheDigit : Prop :=
  ∀ (x : RegIdx) (s : State),
    ((s.reg x).toNat ≤ 15 → ∃ t, exec (.ldFVx x) s = .next t ∧ t.i.toNat = 5 * (s.reg x).toNat ∧ t.pc = s.pc + 2) ∧
    (15 < (s.reg x).toNat → exec (.ldFVx x) s = .fault (.operandOutOfRange (s.reg x) s.pc))

/-- LD B, Vx (R106): with I, I + 1, I + 2 writable, they hold the decimal digits of V[X], most significant first, and I
stays (D35, log entry 20). -/
def Obligations.DecimalDigitsAreStored : Prop :=
  ∀ (x : RegIdx) (s : State), AllWritable s.indexAddr 3 →
    ∃ (t : State) (h d u : Byte), exec (.ldBVx x) s = .next t ∧
      t.byteAt s.indexAddr = some h ∧ t.byteAt (s.indexAddr + 1) = some d ∧ t.byteAt (s.indexAddr + 2) = some u ∧
      100 * h.toNat + 10 * d.toNat + u.toNat = (s.reg x).toNat ∧ d.toNat ≤ 9 ∧ u.toNat ≤ 9 ∧
      t.i = s.i ∧ t.pc = s.pc + 2

/-- LD [I], Vx (R107): with I to I + X writable, they hold V0 to V[X]; I stays, or under `loadStoreIncrementsI` (D10,
log entry 5) moves past them. -/
def Obligations.BlockStoreWritesTheRegisters : Prop :=
  ∀ (x : RegIdx) (s : State), AllWritable s.indexAddr (x.val + 1) →
    ∃ t, exec (.ldMemIVx x) s = .next t ∧
      (∀ r : RegIdx, r ≤ x → t.byteAt (s.indexAddr + r.val) = some (s.reg r)) ∧
      (s.params.loadStoreIncrementsI = false → t.i = s.i) ∧
      (s.params.loadStoreIncrementsI = true → t.i.toNat = (s.i.toNat + x.val + 1) % 65536) ∧ t.pc = s.pc + 2

/-- LD Vx, [I] (R108): with I to I + X readable and defined, V0 to V[X] take their bytes; I stays, or under
`loadStoreIncrementsI` (D10, log entry 5) moves past them. -/
def Obligations.BlockLoadReadsTheRegisters : Prop :=
  ∀ (x : RegIdx) (s : State), s.AllReadable s.indexAddr (x.val + 1) →
    ∃ t, exec (.ldVxMemI x) s = .next t ∧
      (∀ r : RegIdx, r ≤ x → s.byteAt (s.indexAddr + r.val) = some (t.reg r)) ∧
      (s.params.loadStoreIncrementsI = false → t.i = s.i) ∧
      (s.params.loadStoreIncrementsI = true → t.i.toNat = (s.i.toNat + x.val + 1) % 65536) ∧ t.pc = s.pc + 2

/-- A block store followed, from any state with the memory it left and the same I, by the block load gives V0 to V[X] back
(R59, R107, R108; D35, log entry 20). -/
def Obligations.BlockLoadUndoesBlockStore : Prop :=
  ∀ (x : RegIdx) (s t u : State), exec (.ldMemIVx x) s = .next t → u.mem = t.mem → u.params = t.params → u.i = s.i →
    ∃ w, exec (.ldVxMemI x) u = .next w ∧ ∀ r : RegIdx, r ≤ x → w.reg r = s.reg r

/-- LD B and LD [I] raise the fault of the first address of theirs that may not be written, as an exact natural number
(R106, R107, R127; D8, D33, log entries 11 and 22). -/
def Obligations.StoresFaultAtTheFirstBadAddress : Prop :=
  ∀ (x : RegIdx) (s : State) (k : Nat), AllWritable s.indexAddr k →
    ¬ (0x200 ≤ s.indexAddr + k ∧ s.indexAddr + k ≤ 0xFFF) →
    (k < 3 → exec (.ldBVx x) s = .fault (.outOfRangeAccess (s.indexAddr + k) .write s.pc)) ∧
    (k ≤ x.val → exec (.ldMemIVx x) s = .fault (.outOfRangeAccess (s.indexAddr + k) .write s.pc))

/-- DRW and LD Vx, [I] raise the fault of the first address of theirs that may not be read or holds no defined byte
(R108, R110, R127; D8, D20, D33, log entries 4, 11 and 22). -/
def Obligations.ReadsFaultAtTheFirstBadAddress : Prop :=
  ∀ (x y : RegIdx) (n : Nibble) (s : State) (k : Nat) (f : Fault), s.AllReadable s.indexAddr k →
    ((¬ (s.indexAddr + k ≤ 0x04F ∨ (0x200 ≤ s.indexAddr + k ∧ s.indexAddr + k ≤ 0xFFF)) ∧
        f = .outOfRangeAccess (s.indexAddr + k) .read s.pc) ∨
      ((s.indexAddr + k ≤ 0x04F ∨ (0x200 ≤ s.indexAddr + k ∧ s.indexAddr + k ≤ 0xFFF)) ∧
        s.byteAt (s.indexAddr + k) = none ∧ f = .unsetRead (s.indexAddr + k) s.pc)) →
    (k < n.toNat → exec (.drwVxVyNibble x y n) s = .fault f) ∧
    (k ≤ x.val → exec (.ldVxMemI x) s = .fault f)

/-- A data write takes effect in the program region and faults everywhere else (R50); the testable properties of the
AddressSpace (R58): a written byte reads back, and the reserved region can be neither read nor written. A write changes no
other byte (R59). -/
def Obligations.MemoryReadsBackWhatWasWritten : Prop :=
  ∀ (s : State) (a : Nat) (v : Byte),
    (0x200 ≤ a ∧ a ≤ 0xFFF → ∃ t, s.memWrite a v = .ok t ∧ t.memRead a = .ok v ∧
      ∀ c, c ≠ a → t.byteAt c = s.byteAt c) ∧
    (¬ (0x200 ≤ a ∧ a ≤ 0xFFF) → s.memWrite a v = .error (.outOfRangeAccess a .write s.pc)) ∧
    (0x050 ≤ a ∧ a ≤ 0x1FF → s.memRead a = .error (.outOfRangeAccess a .read s.pc))

/-- The font region is written once and never mutated (R43): construction puts the font there, a data write there faults,
and no step and no other host operation that leaves no fault changes a byte of it, nor any byte below the program region. -/
def Obligations.FontIsNeverChanged : Prop :=
  (∀ (p : Params) (v : Vector Byte 16) (i : Word) (img : List Byte) (t : State), construct p v i img = .next t →
    ∀ (a : Nat) (h : a < 80), t.byteAt a = some (p.fontBytes[a])) ∧
  (∀ (s : State) (a : Nat) (v : Byte), a ≤ 0x04F → s.memWrite a v = .error (.outOfRangeAccess a .write s.pc)) ∧
  (∀ (s t : State) (a : Nat), a < 0x200 → step s = .next t → t.byteAt a = s.byteAt a) ∧
  (∀ (s t : State) (op : HostOp) (a : Nat), a < 0x200 → s.apply op = .next t → t.fault = none →
    t.byteAt a = s.byteAt a)

/-! ## Display (43_display) -/

/-- CLS (R109): every pixel 0 and `dirty` set, whatever they were. -/
def Obligations.ClsClearsEveryPixel : Prop :=
  ∀ s : State, ∃ t, exec .cls s = .next t ∧ (∀ r c, t.fb.pixel r c = false) ∧ t.dirty = true ∧
    (∀ r, t.reg r = s.reg r) ∧ t.pc = s.pc + 2

/-- DRW (R110): with its rows readable, exactly the pixels the sprite covers flip, VF is 1 if one of them was 1 and else
0, and `dirty` is set, with N = 0 too. The bit order is D13 (log entry 10), N = 0 and the operand order D36, D38
(log entry 18). -/
def Obligations.DrwFlipsTheCoveredPixels : Prop :=
  ∀ (x y : RegIdx) (n : Nibble) (s : State) (rows : List Byte), rows.length = n.toNat →
    (∀ k < n.toNat, (s.indexAddr + k ≤ 0x04F ∨ (0x200 ≤ s.indexAddr + k ∧ s.indexAddr + k ≤ 0xFFF)) ∧
      s.byteAt (s.indexAddr + k) = some (rows.getD k 0)) →
    ∃ t, exec (.drwVxVyNibble x y n) s = .next t ∧
      (∀ r c, SpriteCovers rows (s.reg x).toNat (s.reg y).toNat r c → t.fb.pixel r c = !s.fb.pixel r c) ∧
      (∀ r c, ¬ SpriteCovers rows (s.reg x).toNat (s.reg y).toNat r c → t.fb.pixel r c = s.fb.pixel r c) ∧
      ((∃ r c, SpriteCovers rows (s.reg x).toNat (s.reg y).toNat r c ∧ s.fb.pixel r c = true) → t.reg 15 = 1) ∧
      ((¬ ∃ r c, SpriteCovers rows (s.reg x).toNat (s.reg y).toNat r c ∧ s.fb.pixel r c = true) → t.reg 15 = 0) ∧
      t.dirty = true ∧ t.pc = s.pc + 2

/-- Drawing the same sprite twice at the same place (R112), from any state with what the first draw left: the framebuffer is as
before the first draw, and the second draw collides exactly if the first turned a pixel on. -/
def Obligations.DrawingTwiceRestoresTheDisplay : Prop :=
  ∀ (x y : RegIdx) (n : Nibble) (s t u : State), exec (.drwVxVyNibble x y n) s = .next t →
    u.fb = t.fb → u.mem = t.mem → u.params = t.params → u.i = t.i → u.reg x = s.reg x → u.reg y = s.reg y →
    ∃ w, exec (.drwVxVyNibble x y n) u = .next w ∧ w.fb = s.fb ∧
      ((∃ r c, s.fb.pixel r c = false ∧ t.fb.pixel r c = true) → w.reg 15 = 1) ∧
      ((¬ ∃ r c, s.fb.pixel r c = false ∧ t.fb.pixel r c = true) → w.reg 15 = 0)

/-! ## Timers and keys (44_timers_input) -/

/-- SKP and SKNP (R114, R115): they skip on the key that V[X] names, and a value above 15 raises OperandOutOfRange (D15,
log entry 13). -/
def Obligations.KeySkipsReadTheMatrix : Prop :=
  ∀ (x : RegIdx) (s : State),
    (∀ k : Fin 16, (s.reg x).toNat = k.val →
      (∃ t, exec (.skpVx x) s = .next t ∧ t.pc = s.pc + if s.key k = true then 4 else 2) ∧
      (∃ t, exec (.sknpVx x) s = .next t ∧ t.pc = s.pc + if s.key k = true then 2 else 4)) ∧
    (15 < (s.reg x).toNat →
      exec (.skpVx x) s = .fault (.operandOutOfRange (s.reg x) s.pc) ∧
      exec (.sknpVx x) s = .fault (.operandOutOfRange (s.reg x) s.pc))

/-- LD Vx, K (R117; D14, log entry 14): with keys pressed the least one goes to V[X] and PC advances; with none the step
completes with PC and every register as they were. -/
def Obligations.KeyWaitStoresTheLeastKey : Prop :=
  ∀ (x : RegIdx) (s : State),
    (∀ k : Fin 16, s.key k = true → (∀ j < k, s.key j = false) →
      ∃ t, exec (.ldVxK x) s = .next t ∧ (t.reg x).toNat = k.val ∧ t.pc = s.pc + 2) ∧
    ((∀ k, s.key k = false) → exec (.ldVxK x) s = .next s)

/-- LD DT, Vx and LD ST, Vx (R118, R119): the timer takes V[X], and the host's reads follow (R137). They are general
knowledge (D35, log entry 20). -/
def Obligations.TimerWritesTakeTheRegister : Prop :=
  ∀ (x : RegIdx) (s : State),
    (∃ t, exec (.ldDtVx x) s = .next t ∧ t.dt = s.reg x ∧ t.st = s.st ∧
      (t.delayIssued = true ↔ s.reg x ≠ 0) ∧ t.pc = s.pc + 2) ∧
    (∃ t, exec (.ldStVx x) s = .next t ∧ t.st = s.reg x ∧ t.dt = s.dt ∧
      (t.soundIssued = true ↔ s.reg x ≠ 0) ∧ t.pc = s.pc + 2)

/-! ## Frames: what every instruction leaves unchanged -/

/-- V registers (R18 to R20): an instruction writes its destination registers, and VF only where R19 says so. -/
def Obligations.OnlyDestinationsAndFlagsAreWritten : Prop :=
  ∀ (i : Instr) (s t : State) (r : RegIdx), exec i s = .next t → writesReg r i = false → t.reg r = s.reg r

/-- I (R25): only LD I, ADD I and LD F write it, and LD [I] and LD Vx, [I] under `loadStoreIncrementsI` (D10, log
entry 5). -/
def Obligations.OnlyIndexInstructionsWriteI : Prop :=
  ∀ (i : Instr) (s t : State), exec i s = .next t → writesI s.params i = false → t.i = s.i

/-- The call stack (R28): only CALL and RET touch it. -/
def Obligations.OnlyCallAndRetTouchTheStack : Prop :=
  ∀ (i : Instr) (s t : State), exec i s = .next t → (∀ nnn, i ≠ .callAddr nnn) → i ≠ .ret →
    t.stack = s.stack ∧ t.sp = s.sp

/-- The timers (R30): only LD DT, Vx writes DT and only LD ST, Vx writes ST. -/
def Obligations.OnlyTimerInstructionsWriteTimers : Prop :=
  ∀ (i : Instr) (s t : State), exec i s = .next t →
    ((∀ x, i ≠ .ldDtVx x) → t.dt = s.dt) ∧ ((∀ x, i ≠ .ldStVx x) → t.st = s.st)

/-- The framebuffer and `dirty` (R32, R37, R113): CLS and DRW set `dirty`, and no other instruction writes either. -/
def Obligations.OnlyClsAndDrwTouchTheDisplay : Prop :=
  ∀ (i : Instr) (s t : State), exec i s = .next t →
    (i = .cls ∨ (∃ x y n, i = .drwVxVyNibble x y n) → t.dirty = true) ∧
    (i ≠ .cls → (∀ x y n, i ≠ .drwVxVyNibble x y n) → t.fb = s.fb ∧ t.dirty = s.dirty)

/-- The key matrix is read-only to the execution unit (R34, R120); `running` is cleared by HALT alone and set by nothing
(R36); no instruction changes the session's fault record (R39) or its parameters (R9, log entry 5). -/
def Obligations.KeysAndSessionStateAreKept : Prop :=
  ∀ (i : Instr) (s t : State), exec i s = .next t →
    t.keys = s.keys ∧ t.fault = s.fault ∧ t.params = s.params ∧
    ((∀ nnn, i ≠ .halt nnn) → t.running = s.running) ∧ (∀ nnn, i = .halt nnn → t.running = false)

/-- Memory (R106, R107): every byte reads as before except those at I, I + 1, ... that LD B (three) and LD [I] (X + 1)
store to; no other instruction stores. -/
def Obligations.OnlyStoredBytesChange : Prop :=
  ∀ (i : Instr) (s t : State) (a : Nat), exec i s = .next t → ¬ StoresTo i s a → t.byteAt a = s.byteAt a

/-- No instruction reads ST (R30): with any other value in it, an instruction does the same to everything else. -/
def Obligations.NoInstructionReadsTheSoundTimer : Prop :=
  ∀ (i : Instr) (s : State) (b : Byte),
    (∀ t, exec i s = .next t → ∃ t', exec i (s.setSt b) = .next t' ∧ t'.setSt 0 = t.setSt 0) ∧
    (∀ f, exec i s = .fault f → exec i (s.setSt b) = .fault f)

/-- No instruction's execution reads PC except CALL (R62): from any other PC, it does the same to everything but PC. -/
def Obligations.OnlyCallReadsThePc : Prop :=
  ∀ (i : Instr) (s t : State) (p : Word), (∀ nnn, i ≠ .callAddr nnn) → exec i s = .next t →
    ∃ t', exec i (s.setPc p) = .next t' ∧ t'.setPc 0 = t.setPc 0

/-! ## Invariants, reset and the host interface -/

/-- Every step keeps memory in its canonical form: addresses strictly rising, nothing listed outside the program region
(R50), and no byte listed that its address holds unlisted (the model's form of R41). -/
def Obligations.StepKeepsMemoryCanonical : Prop :=
  ∀ s t : State, s.MemoryCanonical → step s = .next t → t.MemoryCanonical

/-- Memory right after reset is canonical, and after construction without an image under any parameters. -/
def Obligations.ResetMemoryIsCanonical : Prop :=
  State.reset.MemoryCanonical ∧
  ∀ (p : Params) (v : Vector Byte 16) (i : Word), (State.resetWith p v i).MemoryCanonical

/-- Every schedule of host operations (R133, R139; D24, log entry 23), from a state with canonical memory to one with no fault
recorded, keeps memory canonical. -/
def Obligations.EverySessionKeepsMemoryCanonical : Prop :=
  ∀ (s t : State) (ops : List HostOp), s.MemoryCanonical → s.session ops = .next t → t.fault = none → t.MemoryCanonical

/-- A fault stops the step at once: the host's step records it in `fault` and PC does not advance (R124). No host operation
changes a recorded fault, and no further step is taken (R125; D21, log entry 19). -/
def Obligations.AFaultIsRecordedForGood : Prop :=
  (∀ (s : State) (f : Fault), step s = .fault f → ∃ t, s.hostStep = .next t ∧ t.fault = some f ∧ t.pc = s.pc) ∧
  (∀ (s t : State) (f : Fault) (op : HostOp), s.fault = some f → s.apply op = .next t → t.fault = some f) ∧
  (∀ (s : State) (f : Fault), s.fault = some f → s.apply .step = .refused .stepAfterFault)

/-- Construction (R44, R45, R146): the image is at 0x200, the font at 0x000-0x04F, every other program byte is
`unloadedFill`, PC is 0x200 and `running` is true; memory is canonical; a longer image is refused (D28). SP, the timers, the
framebuffer, the keys and `dirty` are as the spec's decision D19 says (log entry 3); V0-VF and I are what `resetRegs` gives
(log entry 1). -/
def Obligations.ConstructionLoadsImageAndResets : Prop :=
  ∀ (p : Params) (v : Vector Byte 16) (i : Word) (img : List Byte),
    (img.length ≤ 0xE00 → ∃ t, construct p v i img = .next t ∧
      (∀ k < img.length, t.byteAt (0x200 + k) = some (img.getD k 0)) ∧
      (∀ (a : Nat) (h : a < 80), t.byteAt a = some (p.fontBytes[a])) ∧
      (∀ a, 0x200 + img.length ≤ a → a ≤ 0xFFF → t.byteAt a = p.unloadedFill) ∧
      t.MemoryCanonical ∧ t.pc = 0x200 ∧ t.running = true ∧ t.fault = none ∧ t.params = p ∧ t.v = v ∧ t.i = i ∧
      t.sp.val = 0 ∧ t.dt = 0 ∧ t.st = 0 ∧ t.dirty = false ∧ (∀ k, t.key k = false) ∧
      (∀ r c, t.fb.pixel r c = false)) ∧
    (0xE00 < img.length → construct p v i img = .refused (.imageTooLong img.length))

/-- `tick()` (R132): each timer counts down to zero and never below, and nothing else changes, in every state. -/
def Obligations.TickCountsDownToZero : Prop :=
  ∀ s : State,
    s.apply .tick = .next s.tick ∧
    s.tick.dt.toNat = s.dt.toNat - 1 ∧ s.tick.st.toNat = s.st.toNat - 1 ∧
    { s.tick with dt := s.dt, st := s.st } = s

/-- `key_event` and `acknowledge_display` (R134, R135): the key's entry takes `pressed` and the others stay; a key outside
0-15 is refused (D24, log entry 23); `dirty` is cleared; nothing else changes. -/
def Obligations.HostEventsChangeOnlyTheirEntry : Prop :=
  ∀ (s : State) (k : Nat) (pressed : Bool),
    (k < 16 → ∃ t, s.apply (.keyEvent k pressed) = .next t ∧
      (∀ j : Fin 16, t.key j = if j.val = k then pressed else s.key j) ∧ { t with keys := s.keys } = s) ∧
    (16 ≤ k → s.apply (.keyEvent k pressed) = .refused (.keyOutOfRange k)) ∧
    (∃ t, s.apply .acknowledgeDisplay = .next t ∧ t.displayUpdated = false ∧ { t with dirty := s.dirty } = s)

/-- The host's reads (R136, R137): `framebuffer()` is 2048 bytes valued 0 or 1, byte `r * 64 + c` equal to `fb[r][c]`;
`sound_issued()` and `delay_issued()` say whether each timer is nonzero. -/
def Obligations.HostReadsShowDisplayAndTimers : Prop :=
  ∀ s : State,
    s.framebuffer.length = 2048 ∧
    (∀ b ∈ s.framebuffer, b = 0 ∨ b = 1) ∧
    (∀ (r : Fin 32) (c : Fin 64),
      s.framebuffer[r.val * 64 + c.val]? = some (if s.fb.pixel r c = true then 1 else 0)) ∧
    (s.soundIssued = true ↔ s.st ≠ 0) ∧ (s.delayIssued = true ↔ s.dt ≠ 0)

end
end

