-- ==== Sys2Proof/Laws/Decode.lean ====
section
/-! SUPPORT. The fields of each format (30_encoding R64, R66): the encoder's forms give back every field they were built from. -/
namespace Sys2Proof

@[simp] theorem fieldGroup_formA (g : Nibble) (nnn : Addr12) : fieldGroup (formA g nnn) = g := by
  unfold fieldGroup formA
  rw [BitVec.extractLsb'_append_eq_left]

@[simp] theorem fieldNNN_formA (g : Nibble) (nnn : Addr12) : fieldNNN (formA g nnn) = nnn := by
  unfold fieldNNN formA
  rw [BitVec.extractLsb'_append_eq_right]

@[simp] theorem fieldGroup_formXNN (g : Nibble) (x : RegIdx) (nn : Byte) : fieldGroup (formXNN g x nn) = g := by
  unfold fieldGroup formXNN
  rw [BitVec.extractLsb'_append_eq_left]

@[simp] theorem fieldX_formXNN (g : Nibble) (x : RegIdx) (nn : Byte) : fieldX (formXNN g x nn) = x := by
  unfold fieldX formXNN
  have : (g ++ (BitVec.ofFin (w := 4) x ++ nn)).extractLsb' 8 4 = BitVec.ofFin (w := 4) x := by
    apply BitVec.eq_of_getLsbD_eq
    intro k hk
    rw [BitVec.getLsbD_extractLsb', BitVec.getLsbD_append, BitVec.getLsbD_append]
    simp [hk, show 8 + k < 12 by omega]
  exact congrArg BitVec.toFin this

@[simp] theorem fieldNN_formXNN (g : Nibble) (x : RegIdx) (nn : Byte) : fieldNN (formXNN g x nn) = nn := by
  unfold fieldNN formXNN
  apply BitVec.eq_of_getLsbD_eq
  intro k hk
  rw [BitVec.getLsbD_extractLsb', BitVec.getLsbD_append, BitVec.getLsbD_append]
  simp [hk, show k < 12 by omega]

@[simp] theorem fieldGroup_formXY (g : Nibble) (x y : RegIdx) (n : Nibble) : fieldGroup (formXY g x y n) = g := by
  unfold fieldGroup formXY
  rw [BitVec.extractLsb'_append_eq_left]

@[simp] theorem fieldX_formXY (g : Nibble) (x y : RegIdx) (n : Nibble) : fieldX (formXY g x y n) = x := by
  unfold fieldX formXY
  have : (g ++ (BitVec.ofFin (w := 4) x ++ (BitVec.ofFin (w := 4) y ++ n))).extractLsb' 8 4 = BitVec.ofFin (w := 4) x := by
    apply BitVec.eq_of_getLsbD_eq
    intro k hk
    rw [BitVec.getLsbD_extractLsb', BitVec.getLsbD_append, BitVec.getLsbD_append]
    simp [hk, show 8 + k < 12 by omega]
  exact congrArg BitVec.toFin this

@[simp] theorem fieldY_formXY (g : Nibble) (x y : RegIdx) (n : Nibble) : fieldY (formXY g x y n) = y := by
  unfold fieldY formXY
  have : (g ++ (BitVec.ofFin (w := 4) x ++ (BitVec.ofFin (w := 4) y ++ n))).extractLsb' 4 4 = BitVec.ofFin (w := 4) y := by
    apply BitVec.eq_of_getLsbD_eq
    intro k hk
    rw [BitVec.getLsbD_extractLsb', BitVec.getLsbD_append, BitVec.getLsbD_append, BitVec.getLsbD_append]
    simp [hk, show 4 + k < 12 by omega, show 4 + k < 8 by omega]
  exact congrArg BitVec.toFin this

@[simp] theorem fieldN_formXY (g : Nibble) (x y : RegIdx) (n : Nibble) : fieldN (formXY g x y n) = n := by
  unfold fieldN formXY
  apply BitVec.eq_of_getLsbD_eq
  intro k hk
  rw [BitVec.getLsbD_extractLsb', BitVec.getLsbD_append, BitVec.getLsbD_append, BitVec.getLsbD_append]
  simp [hk, show k < 12 by omega, show k < 8 by omega]

end Sys2Proof
end

