-- ==== Sys2Proof/Laws/Memory.lean ====
section
/-! SUPPORT. The laws of memory: a read after a write, a write leaves every other address alone, and every operation keeps the canonical form. -/
namespace Sys2Proof.Machine

theorem valid_iff (a : Nat) : valid a = true ↔ 0x200 ≤ a ∧ a ≤ 0xFFF := by
  simp [valid]

theorem readable_iff (a : Nat) : readable a = true ↔ a ≤ 0x04F ∨ (0x200 ≤ a ∧ a ≤ 0xFFF) := by
  simp [readable, valid]

theorem Memory.find_insert (m : Memory) (a : Nat) (v : Byte) (c : Nat) :
    Memory.find (Memory.insert m a v) c = if c = a then some v else Memory.find m c := by
  induction m with
  | nil => simp [Memory.insert, Memory.find, eq_comm]
  | cons d rest ih =>
    obtain ⟨b, w⟩ := d
    simp only [Memory.insert]
    split
    · simp only [Memory.find, eq_comm]
    · split
      · rename_i h; subst h
        simp only [Memory.find, eq_comm]
        split <;> rfl
      · simp only [Memory.find, ih]
        split <;> split <;> simp_all

theorem Memory.find_erase (m : Memory) (a c : Nat) :
    Memory.find (Memory.erase m a) c = if c = a then none else Memory.find m c := by
  induction m with
  | nil => simp [Memory.erase, Memory.find]
  | cons d rest ih =>
    obtain ⟨b, w⟩ := d
    unfold Memory.erase at ih ⊢
    by_cases hb : b = a
    · subst hb
      rw [List.filter_cons_of_neg (by simp), ih]
      by_cases hc : c = b
      · simp [hc]
      · simp [hc, Memory.find, Ne.symm hc]
    · rw [List.filter_cons_of_pos (by simpa using hb)]
      simp only [Memory.find, ih]
      by_cases hc : b = c
      · subst hc; simp [hb]
      · simp [hc]

/-- A write is seen at its address and nowhere else, in every memory. -/
theorem Memory.byteAt_set (p : Params) (m : Memory) (a : Nat) (v : Byte) (c : Nat) :
    Memory.byteAt p (Memory.set p m a v) c = if c = a then some v else Memory.byteAt p m c := by
  unfold Memory.byteAt Memory.set
  by_cases h : Memory.unlisted p a = some v
  · rw [if_pos h, Memory.find_erase]
    by_cases hc : c = a
    · simp [hc, h]
    · simp [hc]
  · rw [if_neg h, Memory.find_insert]
    by_cases hc : c = a <;> simp [hc]

theorem Memory.mem_insert {m : Memory} {a : Nat} {v : Byte} {c : Host.Cell}
    (h : c ∈ Memory.insert m a v) : c = (a, v) ∨ c ∈ m := by
  induction m with
  | nil => simpa [Memory.insert] using h
  | cons d rest ih =>
    obtain ⟨b, w⟩ := d
    simp only [Memory.insert] at h
    split at h
    · simpa using h
    · split at h
      · rcases List.mem_cons.1 h with h | h
        · exact .inl h
        · exact .inr (List.mem_cons_of_mem _ h)
      · rcases List.mem_cons.1 h with h | h
        · exact .inr (by simp [h])
        · rcases ih h with h | h
          · exact .inl h
          · exact .inr (List.mem_cons_of_mem _ h)

theorem Memory.rising_insert {m : Memory} (a : Nat) (v : Byte) (h : m.Pairwise (fun c d => c.1 < d.1)) :
    (Memory.insert m a v).Pairwise (fun c d => c.1 < d.1) := by
  induction m with
  | nil => simp [Memory.insert]
  | cons d rest ih =>
    obtain ⟨b, w⟩ := d
    obtain ⟨hd, hr⟩ := List.pairwise_cons.1 h
    simp only [Memory.insert]
    split
    · rename_i hab
      refine List.pairwise_cons.2 ⟨fun c hc => ?_, h⟩
      rcases List.mem_cons.1 hc with rfl | hc
      · exact hab
      · exact Nat.lt_trans hab (hd c hc)
    · split
      · rename_i hab
        exact List.pairwise_cons.2 ⟨fun c hc => hab ▸ hd c hc, hr⟩
      · refine List.pairwise_cons.2 ⟨fun c hc => ?_, ih hr⟩
        rcases Memory.mem_insert hc with rfl | hc
        · exact Nat.lt_of_le_of_ne (by omega) (by omega)
        · exact hd c hc

/-- A write into the program region keeps the canonical form. -/
theorem Memory.wf_set {p : Params} {m : Memory} {a : Nat} (v : Byte) (ha : valid a = true) (h : Memory.wf p m) :
    Memory.wf p (Memory.set p m a v) := by
  unfold Memory.set
  split
  · exact ⟨h.1.sublist List.filter_sublist, fun c hc => h.2 c (List.mem_of_mem_filter hc)⟩
  · rename_i hv
    refine ⟨Memory.rising_insert a v h.1, fun c hc => ?_⟩
    rcases Memory.mem_insert hc with rfl | hc
    · exact ⟨ha, hv⟩
    · exact h.2 c hc

theorem Memory.wf_nil (p : Params) : Memory.wf p [] := by simp [Memory.wf]

theorem Memory.find_of_wf_of_not_valid {p : Params} {m : Memory} {a : Nat} (h : Memory.wf p m)
    (ha : valid a = false) : Memory.find m a = none := by
  have h2 := h.2
  clear h
  induction m with
  | nil => rfl
  | cons d rest ih =>
    obtain ⟨b, w⟩ := d
    have hb := (h2 (b, w) (by simp)).1
    have : b ≠ a := by rintro rfl; simp_all
    simp only [Memory.find, this, if_false]
    exact ih (fun c hc => h2 c (List.mem_cons_of_mem _ hc))

theorem Memory.find_eq_none_of_lt {m : Memory} {a : Nat} (h : ∀ c ∈ m, a < c.1) : Memory.find m a = none := by
  induction m with
  | nil => rfl
  | cons d rest ih =>
    obtain ⟨b, w⟩ := d
    have : b ≠ a := by have := h (b, w) (by simp); simp only at this; omega
    simp only [Memory.find, this, if_false]
    exact ih (fun c hc => h c (List.mem_cons_of_mem _ hc))

theorem Memory.mem_of_find {m : Memory} {a : Nat} {v : Byte} (h : Memory.find m a = some v) : (a, v) ∈ m := by
  induction m with
  | nil => simp [Memory.find] at h
  | cons d rest ih =>
    obtain ⟨b, w⟩ := d
    simp only [Memory.find] at h
    split at h
    · rename_i hb; subst hb; cases h; simp
    · exact List.mem_cons_of_mem _ (ih h)

theorem Memory.eq_of_find_eq {m m' : Memory} (h : m.Pairwise (fun c d => c.1 < d.1))
    (h' : m'.Pairwise (fun c d => c.1 < d.1)) (he : ∀ a, Memory.find m a = Memory.find m' a) : m = m' := by
  induction m generalizing m' with
  | nil =>
    cases m' with
    | nil => rfl
    | cons d _ => have := he d.1; simp [Memory.find] at this
  | cons d rest ih =>
    obtain ⟨b, w⟩ := d
    obtain ⟨hd, hr⟩ := List.pairwise_cons.1 h
    cases m' with
    | nil => have := he b; simp [Memory.find] at this
    | cons d' rest' =>
      obtain ⟨b', w'⟩ := d'
      obtain ⟨hd', hr'⟩ := List.pairwise_cons.1 h'
      have hle : b ≤ b' := by
        by_contra hlt
        have h1 := he b'
        rw [Memory.find_eq_none_of_lt (m := (b, w) :: rest)] at h1
        · simp [Memory.find] at h1
        · intro c hc
          rcases List.mem_cons.1 hc with rfl | hc
          · simp only; omega
          · have := hd c hc; simp only at this; omega
      have hge : b' ≤ b := by
        by_contra hlt
        have h1 := he b
        rw [Memory.find_eq_none_of_lt (m := (b', w') :: rest')] at h1
        · simp [Memory.find] at h1
        · intro c hc
          rcases List.mem_cons.1 hc with rfl | hc
          · simp only; omega
          · have := hd' c hc; simp only at this; omega
      obtain rfl : b = b' := Nat.le_antisymm hle hge
      have hw : w = w' := by simpa [Memory.find] using he b
      subst hw
      have htail : ∀ a, Memory.find rest a = Memory.find rest' a := by
        intro a
        by_cases hb : b = a
        · subst hb
          rw [Memory.find_eq_none_of_lt (fun c hc => hd c hc), Memory.find_eq_none_of_lt (fun c hc => hd' c hc)]
        · simpa [Memory.find, hb] using he a
      rw [ih hr hr' htail]

/-- Two canonical memories that hold the same bytes are the same data. -/
theorem Memory.eq_of_byteAt_eq {p : Params} {m m' : Memory} (h : Memory.wf p m) (h' : Memory.wf p m')
    (he : ∀ a, Memory.byteAt p m a = Memory.byteAt p m' a) : m = m' := by
  refine Memory.eq_of_find_eq h.1 h'.1 (fun a => ?_)
  have ha := he a
  unfold Memory.byteAt at ha
  cases hm : Memory.find m a with
  | none =>
    cases hm' : Memory.find m' a with
    | none => rfl
    | some v =>
      simp only [hm, hm'] at ha
      exact absurd ha (h'.2 _ (Memory.mem_of_find hm')).2
  | some v =>
    cases hm' : Memory.find m' a with
    | none =>
      simp only [hm, hm'] at ha
      exact absurd ha.symm (h.2 _ (Memory.mem_of_find hm)).2
    | some w => simpa only [hm, hm'] using ha

end Sys2Proof.Machine
end

