-- ==== Sys2Proof/Laws/State.lean ====
section
/-! SUPPORT. One lemma per field of State per update, and what each update does to the accessors, so that no proof unfolds a record update. -/
namespace Sys2Proof.Machine
variable (s : State)

/-! ### setReg -/

@[simp] theorem State.setReg_v (x : RegIdx) (b : Byte) : (s.setReg x b).v = s.v.set x.val b := rfl
@[simp] theorem State.setReg_pc (x : RegIdx) (b : Byte) : (s.setReg x b).pc = s.pc := rfl
@[simp] theorem State.setReg_i (x : RegIdx) (b : Byte) : (s.setReg x b).i = s.i := rfl
@[simp] theorem State.setReg_stack (x : RegIdx) (b : Byte) : (s.setReg x b).stack = s.stack := rfl
@[simp] theorem State.setReg_sp (x : RegIdx) (b : Byte) : (s.setReg x b).sp = s.sp := rfl
@[simp] theorem State.setReg_dt (x : RegIdx) (b : Byte) : (s.setReg x b).dt = s.dt := rfl
@[simp] theorem State.setReg_st (x : RegIdx) (b : Byte) : (s.setReg x b).st = s.st := rfl
@[simp] theorem State.setReg_fb (x : RegIdx) (b : Byte) : (s.setReg x b).fb = s.fb := rfl
@[simp] theorem State.setReg_keys (x : RegIdx) (b : Byte) : (s.setReg x b).keys = s.keys := rfl
@[simp] theorem State.setReg_running (x : RegIdx) (b : Byte) : (s.setReg x b).running = s.running := rfl
@[simp] theorem State.setReg_dirty (x : RegIdx) (b : Byte) : (s.setReg x b).dirty = s.dirty := rfl
@[simp] theorem State.setReg_fault (x : RegIdx) (b : Byte) : (s.setReg x b).fault = s.fault := rfl
@[simp] theorem State.setReg_mem (x : RegIdx) (b : Byte) : (s.setReg x b).mem = s.mem := rfl
@[simp] theorem State.setReg_params (x : RegIdx) (b : Byte) : (s.setReg x b).params = s.params := rfl
@[simp] theorem State.setReg_draws (x : RegIdx) (b : Byte) : (s.setReg x b).draws = s.draws := rfl
@[simp] theorem State.byteAt_setReg (x : RegIdx) (b : Byte) (q : Nat) : (s.setReg x b).byteAt q = s.byteAt q := rfl
@[simp] theorem State.indexAddr_setReg (x : RegIdx) (b : Byte) : (s.setReg x b).indexAddr = s.indexAddr := rfl
@[simp] theorem State.key_setReg (x : RegIdx) (b : Byte) (k : Fin 16) : (s.setReg x b).key k = s.key k := rfl
@[simp] theorem State.shiftReg_setReg (x : RegIdx) (b : Byte) (p q : RegIdx) : (s.setReg x b).shiftReg p q = s.shiftReg p q := rfl

/-! ### setI -/

@[simp] theorem State.setI_v (w : Word) : (s.setI w).v = s.v := rfl
@[simp] theorem State.setI_pc (w : Word) : (s.setI w).pc = s.pc := rfl
@[simp] theorem State.setI_i (w : Word) : (s.setI w).i = w := rfl
@[simp] theorem State.setI_stack (w : Word) : (s.setI w).stack = s.stack := rfl
@[simp] theorem State.setI_sp (w : Word) : (s.setI w).sp = s.sp := rfl
@[simp] theorem State.setI_dt (w : Word) : (s.setI w).dt = s.dt := rfl
@[simp] theorem State.setI_st (w : Word) : (s.setI w).st = s.st := rfl
@[simp] theorem State.setI_fb (w : Word) : (s.setI w).fb = s.fb := rfl
@[simp] theorem State.setI_keys (w : Word) : (s.setI w).keys = s.keys := rfl
@[simp] theorem State.setI_running (w : Word) : (s.setI w).running = s.running := rfl
@[simp] theorem State.setI_dirty (w : Word) : (s.setI w).dirty = s.dirty := rfl
@[simp] theorem State.setI_fault (w : Word) : (s.setI w).fault = s.fault := rfl
@[simp] theorem State.setI_mem (w : Word) : (s.setI w).mem = s.mem := rfl
@[simp] theorem State.setI_params (w : Word) : (s.setI w).params = s.params := rfl
@[simp] theorem State.setI_draws (w : Word) : (s.setI w).draws = s.draws := rfl
@[simp] theorem State.reg_setI (w : Word) (r : RegIdx) : (s.setI w).reg r = s.reg r := rfl
@[simp] theorem State.byteAt_setI (w : Word) (q : Nat) : (s.setI w).byteAt q = s.byteAt q := rfl
@[simp] theorem State.key_setI (w : Word) (k : Fin 16) : (s.setI w).key k = s.key k := rfl
@[simp] theorem State.shiftReg_setI (w : Word) (p q : RegIdx) : (s.setI w).shiftReg p q = s.shiftReg p q := rfl

/-! ### setPc -/

@[simp] theorem State.setPc_v (w : Word) : (s.setPc w).v = s.v := rfl
@[simp] theorem State.setPc_pc (w : Word) : (s.setPc w).pc = w := rfl
@[simp] theorem State.setPc_i (w : Word) : (s.setPc w).i = s.i := rfl
@[simp] theorem State.setPc_stack (w : Word) : (s.setPc w).stack = s.stack := rfl
@[simp] theorem State.setPc_sp (w : Word) : (s.setPc w).sp = s.sp := rfl
@[simp] theorem State.setPc_dt (w : Word) : (s.setPc w).dt = s.dt := rfl
@[simp] theorem State.setPc_st (w : Word) : (s.setPc w).st = s.st := rfl
@[simp] theorem State.setPc_fb (w : Word) : (s.setPc w).fb = s.fb := rfl
@[simp] theorem State.setPc_keys (w : Word) : (s.setPc w).keys = s.keys := rfl
@[simp] theorem State.setPc_running (w : Word) : (s.setPc w).running = s.running := rfl
@[simp] theorem State.setPc_dirty (w : Word) : (s.setPc w).dirty = s.dirty := rfl
@[simp] theorem State.setPc_fault (w : Word) : (s.setPc w).fault = s.fault := rfl
@[simp] theorem State.setPc_mem (w : Word) : (s.setPc w).mem = s.mem := rfl
@[simp] theorem State.setPc_params (w : Word) : (s.setPc w).params = s.params := rfl
@[simp] theorem State.setPc_draws (w : Word) : (s.setPc w).draws = s.draws := rfl
@[simp] theorem State.reg_setPc (w : Word) (r : RegIdx) : (s.setPc w).reg r = s.reg r := rfl
@[simp] theorem State.byteAt_setPc (w : Word) (q : Nat) : (s.setPc w).byteAt q = s.byteAt q := rfl
@[simp] theorem State.indexAddr_setPc (w : Word) : (s.setPc w).indexAddr = s.indexAddr := rfl
@[simp] theorem State.key_setPc (w : Word) (k : Fin 16) : (s.setPc w).key k = s.key k := rfl
@[simp] theorem State.shiftReg_setPc (w : Word) (p q : RegIdx) : (s.setPc w).shiftReg p q = s.shiftReg p q := rfl

/-! ### advance -/

@[simp] theorem State.advance_v (n : Nat) : (s.advance n).v = s.v := rfl
@[simp] theorem State.advance_pc (n : Nat) : (s.advance n).pc = s.pc + BitVec.ofNat 16 n := rfl
@[simp] theorem State.advance_i (n : Nat) : (s.advance n).i = s.i := rfl
@[simp] theorem State.advance_stack (n : Nat) : (s.advance n).stack = s.stack := rfl
@[simp] theorem State.advance_sp (n : Nat) : (s.advance n).sp = s.sp := rfl
@[simp] theorem State.advance_dt (n : Nat) : (s.advance n).dt = s.dt := rfl
@[simp] theorem State.advance_st (n : Nat) : (s.advance n).st = s.st := rfl
@[simp] theorem State.advance_fb (n : Nat) : (s.advance n).fb = s.fb := rfl
@[simp] theorem State.advance_keys (n : Nat) : (s.advance n).keys = s.keys := rfl
@[simp] theorem State.advance_running (n : Nat) : (s.advance n).running = s.running := rfl
@[simp] theorem State.advance_dirty (n : Nat) : (s.advance n).dirty = s.dirty := rfl
@[simp] theorem State.advance_fault (n : Nat) : (s.advance n).fault = s.fault := rfl
@[simp] theorem State.advance_mem (n : Nat) : (s.advance n).mem = s.mem := rfl
@[simp] theorem State.advance_params (n : Nat) : (s.advance n).params = s.params := rfl
@[simp] theorem State.advance_draws (n : Nat) : (s.advance n).draws = s.draws := rfl
@[simp] theorem State.reg_advance (n : Nat) (r : RegIdx) : (s.advance n).reg r = s.reg r := rfl
@[simp] theorem State.byteAt_advance (n : Nat) (q : Nat) : (s.advance n).byteAt q = s.byteAt q := rfl
@[simp] theorem State.indexAddr_advance (n : Nat) : (s.advance n).indexAddr = s.indexAddr := rfl
@[simp] theorem State.key_advance (n : Nat) (k : Fin 16) : (s.advance n).key k = s.key k := rfl
@[simp] theorem State.shiftReg_advance (n : Nat) (p q : RegIdx) : (s.advance n).shiftReg p q = s.shiftReg p q := rfl

/-! ### setDt -/

@[simp] theorem State.setDt_v (b : Byte) : (s.setDt b).v = s.v := rfl
@[simp] theorem State.setDt_pc (b : Byte) : (s.setDt b).pc = s.pc := rfl
@[simp] theorem State.setDt_i (b : Byte) : (s.setDt b).i = s.i := rfl
@[simp] theorem State.setDt_stack (b : Byte) : (s.setDt b).stack = s.stack := rfl
@[simp] theorem State.setDt_sp (b : Byte) : (s.setDt b).sp = s.sp := rfl
@[simp] theorem State.setDt_dt (b : Byte) : (s.setDt b).dt = b := rfl
@[simp] theorem State.setDt_st (b : Byte) : (s.setDt b).st = s.st := rfl
@[simp] theorem State.setDt_fb (b : Byte) : (s.setDt b).fb = s.fb := rfl
@[simp] theorem State.setDt_keys (b : Byte) : (s.setDt b).keys = s.keys := rfl
@[simp] theorem State.setDt_running (b : Byte) : (s.setDt b).running = s.running := rfl
@[simp] theorem State.setDt_dirty (b : Byte) : (s.setDt b).dirty = s.dirty := rfl
@[simp] theorem State.setDt_fault (b : Byte) : (s.setDt b).fault = s.fault := rfl
@[simp] theorem State.setDt_mem (b : Byte) : (s.setDt b).mem = s.mem := rfl
@[simp] theorem State.setDt_params (b : Byte) : (s.setDt b).params = s.params := rfl
@[simp] theorem State.setDt_draws (b : Byte) : (s.setDt b).draws = s.draws := rfl
@[simp] theorem State.reg_setDt (b : Byte) (r : RegIdx) : (s.setDt b).reg r = s.reg r := rfl
@[simp] theorem State.byteAt_setDt (b : Byte) (q : Nat) : (s.setDt b).byteAt q = s.byteAt q := rfl
@[simp] theorem State.indexAddr_setDt (b : Byte) : (s.setDt b).indexAddr = s.indexAddr := rfl
@[simp] theorem State.key_setDt (b : Byte) (k : Fin 16) : (s.setDt b).key k = s.key k := rfl
@[simp] theorem State.shiftReg_setDt (b : Byte) (p q : RegIdx) : (s.setDt b).shiftReg p q = s.shiftReg p q := rfl

/-! ### setSt -/

@[simp] theorem State.setSt_v (b : Byte) : (s.setSt b).v = s.v := rfl
@[simp] theorem State.setSt_pc (b : Byte) : (s.setSt b).pc = s.pc := rfl
@[simp] theorem State.setSt_i (b : Byte) : (s.setSt b).i = s.i := rfl
@[simp] theorem State.setSt_stack (b : Byte) : (s.setSt b).stack = s.stack := rfl
@[simp] theorem State.setSt_sp (b : Byte) : (s.setSt b).sp = s.sp := rfl
@[simp] theorem State.setSt_dt (b : Byte) : (s.setSt b).dt = s.dt := rfl
@[simp] theorem State.setSt_st (b : Byte) : (s.setSt b).st = b := rfl
@[simp] theorem State.setSt_fb (b : Byte) : (s.setSt b).fb = s.fb := rfl
@[simp] theorem State.setSt_keys (b : Byte) : (s.setSt b).keys = s.keys := rfl
@[simp] theorem State.setSt_running (b : Byte) : (s.setSt b).running = s.running := rfl
@[simp] theorem State.setSt_dirty (b : Byte) : (s.setSt b).dirty = s.dirty := rfl
@[simp] theorem State.setSt_fault (b : Byte) : (s.setSt b).fault = s.fault := rfl
@[simp] theorem State.setSt_mem (b : Byte) : (s.setSt b).mem = s.mem := rfl
@[simp] theorem State.setSt_params (b : Byte) : (s.setSt b).params = s.params := rfl
@[simp] theorem State.setSt_draws (b : Byte) : (s.setSt b).draws = s.draws := rfl
@[simp] theorem State.reg_setSt (b : Byte) (r : RegIdx) : (s.setSt b).reg r = s.reg r := rfl
@[simp] theorem State.byteAt_setSt (b : Byte) (q : Nat) : (s.setSt b).byteAt q = s.byteAt q := rfl
@[simp] theorem State.indexAddr_setSt (b : Byte) : (s.setSt b).indexAddr = s.indexAddr := rfl
@[simp] theorem State.key_setSt (b : Byte) (k : Fin 16) : (s.setSt b).key k = s.key k := rfl
@[simp] theorem State.shiftReg_setSt (b : Byte) (p q : RegIdx) : (s.setSt b).shiftReg p q = s.shiftReg p q := rfl

/-! ### halt -/

@[simp] theorem State.halt_v : s.halt.v = s.v := rfl
@[simp] theorem State.halt_pc : s.halt.pc = s.pc := rfl
@[simp] theorem State.halt_i : s.halt.i = s.i := rfl
@[simp] theorem State.halt_stack : s.halt.stack = s.stack := rfl
@[simp] theorem State.halt_sp : s.halt.sp = s.sp := rfl
@[simp] theorem State.halt_dt : s.halt.dt = s.dt := rfl
@[simp] theorem State.halt_st : s.halt.st = s.st := rfl
@[simp] theorem State.halt_fb : s.halt.fb = s.fb := rfl
@[simp] theorem State.halt_keys : s.halt.keys = s.keys := rfl
@[simp] theorem State.halt_running : s.halt.running = false := rfl
@[simp] theorem State.halt_dirty : s.halt.dirty = s.dirty := rfl
@[simp] theorem State.halt_fault : s.halt.fault = s.fault := rfl
@[simp] theorem State.halt_mem : s.halt.mem = s.mem := rfl
@[simp] theorem State.halt_params : s.halt.params = s.params := rfl
@[simp] theorem State.halt_draws : s.halt.draws = s.draws := rfl
@[simp] theorem State.reg_halt (r : RegIdx) : s.halt.reg r = s.reg r := rfl
@[simp] theorem State.byteAt_halt (q : Nat) : s.halt.byteAt q = s.byteAt q := rfl
@[simp] theorem State.indexAddr_halt : s.halt.indexAddr = s.indexAddr := rfl
@[simp] theorem State.key_halt (k : Fin 16) : s.halt.key k = s.key k := rfl
@[simp] theorem State.shiftReg_halt (p q : RegIdx) : s.halt.shiftReg p q = s.shiftReg p q := rfl

/-! ### setFb -/

@[simp] theorem State.setFb_v (fb : Framebuffer) : (s.setFb fb).v = s.v := rfl
@[simp] theorem State.setFb_pc (fb : Framebuffer) : (s.setFb fb).pc = s.pc := rfl
@[simp] theorem State.setFb_i (fb : Framebuffer) : (s.setFb fb).i = s.i := rfl
@[simp] theorem State.setFb_stack (fb : Framebuffer) : (s.setFb fb).stack = s.stack := rfl
@[simp] theorem State.setFb_sp (fb : Framebuffer) : (s.setFb fb).sp = s.sp := rfl
@[simp] theorem State.setFb_dt (fb : Framebuffer) : (s.setFb fb).dt = s.dt := rfl
@[simp] theorem State.setFb_st (fb : Framebuffer) : (s.setFb fb).st = s.st := rfl
@[simp] theorem State.setFb_fb (fb : Framebuffer) : (s.setFb fb).fb = fb := rfl
@[simp] theorem State.setFb_keys (fb : Framebuffer) : (s.setFb fb).keys = s.keys := rfl
@[simp] theorem State.setFb_running (fb : Framebuffer) : (s.setFb fb).running = s.running := rfl
@[simp] theorem State.setFb_dirty (fb : Framebuffer) : (s.setFb fb).dirty = true := rfl
@[simp] theorem State.setFb_fault (fb : Framebuffer) : (s.setFb fb).fault = s.fault := rfl
@[simp] theorem State.setFb_mem (fb : Framebuffer) : (s.setFb fb).mem = s.mem := rfl
@[simp] theorem State.setFb_params (fb : Framebuffer) : (s.setFb fb).params = s.params := rfl
@[simp] theorem State.setFb_draws (fb : Framebuffer) : (s.setFb fb).draws = s.draws := rfl
@[simp] theorem State.reg_setFb (fb : Framebuffer) (r : RegIdx) : (s.setFb fb).reg r = s.reg r := rfl
@[simp] theorem State.byteAt_setFb (fb : Framebuffer) (q : Nat) : (s.setFb fb).byteAt q = s.byteAt q := rfl
@[simp] theorem State.indexAddr_setFb (fb : Framebuffer) : (s.setFb fb).indexAddr = s.indexAddr := rfl
@[simp] theorem State.key_setFb (fb : Framebuffer) (k : Fin 16) : (s.setFb fb).key k = s.key k := rfl
@[simp] theorem State.shiftReg_setFb (fb : Framebuffer) (p q : RegIdx) : (s.setFb fb).shiftReg p q = s.shiftReg p q := rfl

/-! ### setByte -/

@[simp] theorem State.setByte_v (a : Nat) (b : Byte) : (s.setByte a b).v = s.v := rfl
@[simp] theorem State.setByte_pc (a : Nat) (b : Byte) : (s.setByte a b).pc = s.pc := rfl
@[simp] theorem State.setByte_i (a : Nat) (b : Byte) : (s.setByte a b).i = s.i := rfl
@[simp] theorem State.setByte_stack (a : Nat) (b : Byte) : (s.setByte a b).stack = s.stack := rfl
@[simp] theorem State.setByte_sp (a : Nat) (b : Byte) : (s.setByte a b).sp = s.sp := rfl
@[simp] theorem State.setByte_dt (a : Nat) (b : Byte) : (s.setByte a b).dt = s.dt := rfl
@[simp] theorem State.setByte_st (a : Nat) (b : Byte) : (s.setByte a b).st = s.st := rfl
@[simp] theorem State.setByte_fb (a : Nat) (b : Byte) : (s.setByte a b).fb = s.fb := rfl
@[simp] theorem State.setByte_keys (a : Nat) (b : Byte) : (s.setByte a b).keys = s.keys := rfl
@[simp] theorem State.setByte_running (a : Nat) (b : Byte) : (s.setByte a b).running = s.running := rfl
@[simp] theorem State.setByte_dirty (a : Nat) (b : Byte) : (s.setByte a b).dirty = s.dirty := rfl
@[simp] theorem State.setByte_fault (a : Nat) (b : Byte) : (s.setByte a b).fault = s.fault := rfl
@[simp] theorem State.setByte_mem (a : Nat) (b : Byte) : (s.setByte a b).mem = Memory.set s.params s.mem a b := rfl
@[simp] theorem State.setByte_params (a : Nat) (b : Byte) : (s.setByte a b).params = s.params := rfl
@[simp] theorem State.setByte_draws (a : Nat) (b : Byte) : (s.setByte a b).draws = s.draws := rfl
@[simp] theorem State.reg_setByte (a : Nat) (b : Byte) (r : RegIdx) : (s.setByte a b).reg r = s.reg r := rfl
@[simp] theorem State.indexAddr_setByte (a : Nat) (b : Byte) : (s.setByte a b).indexAddr = s.indexAddr := rfl
@[simp] theorem State.key_setByte (a : Nat) (b : Byte) (k : Fin 16) : (s.setByte a b).key k = s.key k := rfl
@[simp] theorem State.shiftReg_setByte (a : Nat) (b : Byte) (p q : RegIdx) : (s.setByte a b).shiftReg p q = s.shiftReg p q := rfl

/-! ### setFlag -/

@[simp] theorem State.setFlag_v (c : Bool) : (s.setFlag c).v = s.v.set vF.val (flagByte c) := rfl
@[simp] theorem State.setFlag_pc (c : Bool) : (s.setFlag c).pc = s.pc := rfl
@[simp] theorem State.setFlag_i (c : Bool) : (s.setFlag c).i = s.i := rfl
@[simp] theorem State.setFlag_stack (c : Bool) : (s.setFlag c).stack = s.stack := rfl
@[simp] theorem State.setFlag_sp (c : Bool) : (s.setFlag c).sp = s.sp := rfl
@[simp] theorem State.setFlag_dt (c : Bool) : (s.setFlag c).dt = s.dt := rfl
@[simp] theorem State.setFlag_st (c : Bool) : (s.setFlag c).st = s.st := rfl
@[simp] theorem State.setFlag_fb (c : Bool) : (s.setFlag c).fb = s.fb := rfl
@[simp] theorem State.setFlag_keys (c : Bool) : (s.setFlag c).keys = s.keys := rfl
@[simp] theorem State.setFlag_running (c : Bool) : (s.setFlag c).running = s.running := rfl
@[simp] theorem State.setFlag_dirty (c : Bool) : (s.setFlag c).dirty = s.dirty := rfl
@[simp] theorem State.setFlag_fault (c : Bool) : (s.setFlag c).fault = s.fault := rfl
@[simp] theorem State.setFlag_mem (c : Bool) : (s.setFlag c).mem = s.mem := rfl
@[simp] theorem State.setFlag_params (c : Bool) : (s.setFlag c).params = s.params := rfl
@[simp] theorem State.setFlag_draws (c : Bool) : (s.setFlag c).draws = s.draws := rfl
@[simp] theorem State.byteAt_setFlag (c : Bool) (q : Nat) : (s.setFlag c).byteAt q = s.byteAt q := rfl
@[simp] theorem State.indexAddr_setFlag (c : Bool) : (s.setFlag c).indexAddr = s.indexAddr := rfl
@[simp] theorem State.key_setFlag (c : Bool) (k : Fin 16) : (s.setFlag c).key k = s.key k := rfl
@[simp] theorem State.shiftReg_setFlag (c : Bool) (p q : RegIdx) : (s.setFlag c).shiftReg p q = s.shiftReg p q := rfl

/-! ### Host operations -/

@[simp] theorem State.tick_v : s.tick.v = s.v := rfl
@[simp] theorem State.tick_pc : s.tick.pc = s.pc := rfl
@[simp] theorem State.tick_i : s.tick.i = s.i := rfl
@[simp] theorem State.tick_stack : s.tick.stack = s.stack := rfl
@[simp] theorem State.tick_sp : s.tick.sp = s.sp := rfl
@[simp] theorem State.tick_dt : s.tick.dt = countDown s.dt := rfl
@[simp] theorem State.tick_st : s.tick.st = countDown s.st := rfl
@[simp] theorem State.tick_fb : s.tick.fb = s.fb := rfl
@[simp] theorem State.tick_keys : s.tick.keys = s.keys := rfl
@[simp] theorem State.tick_running : s.tick.running = s.running := rfl
@[simp] theorem State.tick_dirty : s.tick.dirty = s.dirty := rfl
@[simp] theorem State.tick_fault : s.tick.fault = s.fault := rfl
@[simp] theorem State.tick_mem : s.tick.mem = s.mem := rfl
@[simp] theorem State.tick_params : s.tick.params = s.params := rfl
@[simp] theorem State.tick_draws : s.tick.draws = s.draws := rfl

@[simp] theorem State.acknowledgeDisplay_v : s.acknowledgeDisplay.v = s.v := rfl
@[simp] theorem State.acknowledgeDisplay_pc : s.acknowledgeDisplay.pc = s.pc := rfl
@[simp] theorem State.acknowledgeDisplay_i : s.acknowledgeDisplay.i = s.i := rfl
@[simp] theorem State.acknowledgeDisplay_stack : s.acknowledgeDisplay.stack = s.stack := rfl
@[simp] theorem State.acknowledgeDisplay_sp : s.acknowledgeDisplay.sp = s.sp := rfl
@[simp] theorem State.acknowledgeDisplay_dt : s.acknowledgeDisplay.dt = s.dt := rfl
@[simp] theorem State.acknowledgeDisplay_st : s.acknowledgeDisplay.st = s.st := rfl
@[simp] theorem State.acknowledgeDisplay_fb : s.acknowledgeDisplay.fb = s.fb := rfl
@[simp] theorem State.acknowledgeDisplay_keys : s.acknowledgeDisplay.keys = s.keys := rfl
@[simp] theorem State.acknowledgeDisplay_running : s.acknowledgeDisplay.running = s.running := rfl
@[simp] theorem State.acknowledgeDisplay_dirty : s.acknowledgeDisplay.dirty = false := rfl
@[simp] theorem State.acknowledgeDisplay_fault : s.acknowledgeDisplay.fault = s.fault := rfl
@[simp] theorem State.acknowledgeDisplay_mem : s.acknowledgeDisplay.mem = s.mem := rfl
@[simp] theorem State.acknowledgeDisplay_params : s.acknowledgeDisplay.params = s.params := rfl
@[simp] theorem State.acknowledgeDisplay_draws : s.acknowledgeDisplay.draws = s.draws := rfl

/-! ### What writing a register does to reading one -/

theorem State.reg_setReg (x : RegIdx) (b : Byte) (r : RegIdx) :
    (s.setReg x b).reg r = if r = x then b else s.reg r := by
  simp only [State.reg, State.setReg, Vector.getElem_set, Fin.ext_iff, eq_comm]

@[simp] theorem State.reg_setReg_same (x : RegIdx) (b : Byte) : (s.setReg x b).reg x = b := by
  simp [State.reg_setReg]

@[simp] theorem State.reg_setReg_ne {x r : RegIdx} (h : r ≠ x) (b : Byte) : (s.setReg x b).reg r = s.reg r := by
  simp [State.reg_setReg, h]

theorem State.reg_setFlag (c : Bool) (r : RegIdx) :
    (s.setFlag c).reg r = if r = vF then flagByte c else s.reg r := s.reg_setReg vF (flagByte c) r

@[simp] theorem State.reg_setFlag_vF (c : Bool) : (s.setFlag c).reg vF = flagByte c := by
  simp [State.reg_setFlag]

@[simp] theorem State.reg_setFlag_ne {r : RegIdx} (h : r ≠ vF) (c : Bool) : (s.setFlag c).reg r = s.reg r := by
  simp [State.reg_setFlag, h]

@[simp] theorem flagByte_true : flagByte true = 1 := rfl
@[simp] theorem flagByte_false : flagByte false = 0 := rfl

end Sys2Proof.Machine
end

