-- ==== Sys2Proof/Laws/Ops.lean ====
section
/-! SUPPORT. One lemma per shared operation that says everything it can do; the provers cite these and unfold nothing. -/
namespace Sys2Proof.Machine

/-! ## Raising -/

@[simp] theorem orRaise_ok {α : Type} (a : α) (k : α → Result) : orRaise (.ok a) k = k a := rfl

@[simp] theorem orRaise_error {α : Type} (f : Fault) (k : α → Result) : orRaise (.error f) k = .fault f := rfl

theorem orRaise_next_iff {α : Type} {r : Except Fault α} {k : α → Result} {t : State} :
    orRaise r k = .next t ↔ ∃ a, r = .ok a ∧ k a = .next t := by
  cases r <;> simp

theorem orRaise_fault_iff {α : Type} {r : Except Fault α} {k : α → Result} {f : Fault} :
    orRaise r k = .fault f ↔ r = .error f ∨ ∃ a, r = .ok a ∧ k a = .fault f := by
  cases r <;> simp

theorem orRaise_refused_iff {α : Type} {r : Except Fault α} {k : α → Result} {e : Refusal} :
    orRaise r k = .refused e ↔ ∃ a, r = .ok a ∧ k a = .refused e := by
  cases r <;> simp

/-! ## One byte of memory -/

theorem State.byteAt_setByte (s : State) (a : Nat) (b : Byte) (c : Nat) :
    (s.setByte a b).byteAt c = if c = a then some b else s.byteAt c :=
  Memory.byteAt_set s.params s.mem a b c

theorem State.definedByte_ok_iff {s : State} {a : Nat} {b : Byte} : s.definedByte a = .ok b ↔ s.byteAt a = some b := by
  unfold State.definedByte
  cases s.byteAt a <;> simp

theorem State.definedByte_error_iff {s : State} {a : Nat} {f : Fault} :
    s.definedByte a = .error f ↔ s.byteAt a = none ∧ f = .unsetRead a s.pc := by
  unfold State.definedByte
  cases s.byteAt a <;> simp [eq_comm]

theorem State.memRead_ok_iff {s : State} {a : Nat} {b : Byte} :
    s.memRead a = .ok b ↔ readable a = true ∧ s.byteAt a = some b := by
  unfold State.memRead
  split <;> simp_all [State.definedByte_ok_iff]

theorem State.memRead_error_iff {s : State} {a : Nat} {f : Fault} :
    s.memRead a = .error f ↔
      (readable a = false ∧ f = .outOfRangeAccess a .read s.pc) ∨
      (readable a = true ∧ s.byteAt a = none ∧ f = .unsetRead a s.pc) := by
  unfold State.memRead
  by_cases h : readable a = true
  · simp [h, State.definedByte_error_iff]
  · simp [h]; exact eq_comm

theorem State.fetchByte_ok_iff {s : State} {a : Nat} {b : Byte} :
    s.fetchByte a = .ok b ↔ valid a = true ∧ s.byteAt a = some b := by
  unfold State.fetchByte
  split <;> simp_all [State.definedByte_ok_iff]

theorem State.fetchByte_error_iff {s : State} {a : Nat} {f : Fault} :
    s.fetchByte a = .error f ↔
      (valid a = false ∧ f = .outOfRangeAccess a .fetch s.pc) ∨
      (valid a = true ∧ s.byteAt a = none ∧ f = .unsetRead a s.pc) := by
  unfold State.fetchByte
  by_cases h : valid a = true
  · simp [h, State.definedByte_error_iff]
  · simp [h]; exact eq_comm

theorem State.memWrite_ok_iff {s t : State} {a : Nat} {b : Byte} :
    s.memWrite a b = .ok t ↔ valid a = true ∧ t = s.setByte a b := by
  unfold State.memWrite
  by_cases h : valid a = true
  · simp [h]; exact eq_comm
  · simp [h]

theorem State.memWrite_error_iff {s : State} {a : Nat} {b : Byte} {f : Fault} :
    s.memWrite a b = .error f ↔ valid a = false ∧ f = .outOfRangeAccess a .write s.pc := by
  unfold State.memWrite
  by_cases h : valid a = true
  · simp [h]
  · simp [h]; exact eq_comm

/-! ## Several bytes of memory -/

/-- `readBytes` answers exactly when every read succeeds, with the bytes read. -/
theorem State.readBytes_ok_iff {s : State} {a n : Nat} {bs : List Byte} :
    s.readBytes a n = .ok bs ↔ bs.length = n ∧ ∀ k < n, s.memRead (a + k) = .ok (bs.getD k 0) := by
  induction n generalizing a bs with
  | zero => cases bs <;> simp [State.readBytes]
  | succ n ih =>
    simp only [State.readBytes]
    cases hm : s.memRead a with
    | error f =>
      simp only [reduceCtorEq, false_iff, not_and]
      intro _ h
      have := h 0 (by omega)
      simp [hm] at this
    | ok b =>
      cases hr : s.readBytes (a + 1) n with
      | error f =>
        simp only [reduceCtorEq, false_iff, not_and]
        intro hl h
        obtain ⟨c, cs, rfl⟩ : ∃ c cs, bs = c :: cs := by cases bs <;> simp_all
        have : s.readBytes (a + 1) n = .ok cs :=
          ih.2 ⟨by simpa using hl, fun k hk => by
            have := h (k + 1) (by omega)
            rw [Nat.add_right_comm, Nat.add_assoc]
            simpa [Nat.add_assoc, Nat.add_comm 1] using this⟩
        simp [hr] at this
      | ok cs =>
        have hcs := ih.1 hr
        simp only [Except.ok.injEq]
        constructor
        · rintro rfl
          refine ⟨by simp [hcs.1], fun k hk => ?_⟩
          cases k with
          | zero => simpa using hm
          | succ k =>
            have := hcs.2 k (by omega)
            simpa [Nat.add_assoc, Nat.add_comm 1] using this
        · rintro ⟨hl, h⟩
          obtain ⟨c, ds, rfl⟩ : ∃ c ds, bs = c :: ds := by cases bs <;> simp_all
          have h0 := h 0 (by omega)
          simp only [Nat.add_zero, hm, List.getD_cons_zero, Except.ok.injEq] at h0
          have hds : s.readBytes (a + 1) n = .ok ds :=
            ih.2 ⟨by simpa using hl, fun k hk => by
              have := h (k + 1) (by omega)
              simpa [Nat.add_assoc, Nat.add_comm 1] using this⟩
          rw [hr, Except.ok.injEq] at hds
          rw [h0, hds]

/-- `readBytes` raises the fault of the first read that fails. -/
theorem State.readBytes_error {s : State} {a n k : Nat} {f : Fault} (hk : k < n) (hf : s.memRead (a + k) = .error f)
    (h : ∀ j < k, ∃ b, s.memRead (a + j) = .ok b) : s.readBytes a n = .error f := by
  induction k generalizing a n with
  | zero =>
    obtain ⟨n, rfl⟩ : ∃ m, n = m + 1 := ⟨n - 1, by omega⟩
    simp only [Nat.add_zero] at hf
    simp [State.readBytes, hf]
  | succ k ih =>
    obtain ⟨n, rfl⟩ : ∃ m, n = m + 1 := ⟨n - 1, by omega⟩
    obtain ⟨b, hb⟩ := h 0 (by omega)
    simp only [Nat.add_zero] at hb
    have := ih (a := a + 1) (n := n) (by omega) (by simpa [Nat.add_assoc, Nat.add_comm 1] using hf)
      (fun j hj => by simpa [Nat.add_assoc, Nat.add_comm 1] using h (j + 1) (by omega))
    simp [State.readBytes, hb, this]

/-- A fault of `readBytes` is the fault of one of its reads. -/
theorem State.readBytes_error_inv {s : State} {a n : Nat} {f : Fault} (h : s.readBytes a n = .error f) :
    ∃ k < n, s.memRead (a + k) = .error f := by
  induction n generalizing a with
  | zero => simp [State.readBytes] at h
  | succ n ih =>
    simp only [State.readBytes] at h
    split at h
    · rename_i g hg
      exact ⟨0, by omega, by simpa [hg] using h⟩
    · split at h
      · rename_i g hg
        cases h
        obtain ⟨k, hk, hf⟩ := ih hg
        exact ⟨k + 1, by omega, by simpa [Nat.add_assoc, Nat.add_comm 1] using hf⟩
      · cases h

/-- `setBytes` changes memory only. -/
theorem State.setBytes_eq (s : State) (a : Nat) (bs : List Byte) :
    s.setBytes a bs = { s with mem := (s.setBytes a bs).mem } := by
  induction bs generalizing s a with
  | nil => rfl
  | cons b bs ih =>
    simp only [State.setBytes]
    rw [ih]
    simp [State.setByte]

theorem State.byteAt_setBytes (s : State) (a : Nat) (bs : List Byte) (c : Nat) :
    (s.setBytes a bs).byteAt c = if a ≤ c ∧ c < a + bs.length then some (bs.getD (c - a) 0) else s.byteAt c := by
  induction bs generalizing s a with
  | nil =>
    rw [if_neg (by simp)]; rfl
  | cons b bs ih =>
    simp only [State.setBytes, ih, State.byteAt_setByte, List.length_cons]
    by_cases h1 : c = a
    · subst h1; simp
    · by_cases h2 : a + 1 ≤ c ∧ c < a + 1 + bs.length
      · rw [if_pos h2, if_pos (by omega)]
        obtain ⟨k, hk⟩ : ∃ k, c - a = k + 1 := ⟨c - a - 1, by omega⟩
        rw [hk, show c - (a + 1) = k by omega]
        simp
      · rw [if_neg h2, if_neg h1, if_neg (by omega)]

theorem State.wf_setBytes {s : State} {a : Nat} {bs : List Byte} (hv : ∀ k < bs.length, valid (a + k) = true)
    (h : Memory.wf s.params s.mem) : Memory.wf s.params (s.setBytes a bs).mem := by
  induction bs generalizing s a with
  | nil => simpa [State.setBytes] using h
  | cons b bs ih =>
    simp only [State.setBytes]
    refine ih (s := s.setByte a b) (fun k hk => ?_) (Memory.wf_set b (hv 0 (by simp)) h)
    simpa [Nat.add_assoc, Nat.add_comm 1] using hv (k + 1) (by simpa using hk)

/-- `writeBytes` answers exactly when every address may be written, with the bytes stored and nothing else changed. -/
theorem State.writeBytes_ok_iff {s t : State} {a : Nat} {bs : List Byte} :
    s.writeBytes a bs = .ok t ↔ (∀ k < bs.length, valid (a + k) = true) ∧ t = s.setBytes a bs := by
  induction bs generalizing s a with
  | nil => simp [State.writeBytes, State.setBytes]; exact eq_comm
  | cons b bs ih =>
    simp only [State.writeBytes, State.setBytes]
    cases hm : s.memWrite a b with
    | error f =>
      simp only [reduceCtorEq, false_iff, not_and]
      intro h
      have := h 0 (by simp)
      simp_all [State.memWrite_error_iff]
    | ok s' =>
      obtain ⟨hv, rfl⟩ := State.memWrite_ok_iff.1 hm
      simp only [ih, List.length_cons]
      refine and_congr_left fun _ => ⟨fun h k hk => ?_, fun h k hk => ?_⟩
      · cases k with
        | zero => simpa using hv
        | succ k => simpa [Nat.add_assoc, Nat.add_comm 1] using h k (by omega)
      · simpa [Nat.add_assoc, Nat.add_comm 1] using h (k + 1) (by omega)

/-- `writeBytes` raises the fault of the first address that may not be written. -/
theorem State.writeBytes_error {s : State} {a k : Nat} {bs : List Byte} (hk : k < bs.length)
    (hf : valid (a + k) = false) (h : ∀ j < k, valid (a + j) = true) :
    s.writeBytes a bs = .error (.outOfRangeAccess (a + k) .write s.pc) := by
  induction k generalizing s a bs with
  | zero =>
    obtain ⟨b, bs, rfl⟩ : ∃ c cs, bs = c :: cs := by cases bs <;> simp_all
    simp only [Nat.add_zero] at hf
    simp [State.writeBytes, State.memWrite, hf]
  | succ k ih =>
    obtain ⟨b, bs, rfl⟩ : ∃ c cs, bs = c :: cs := by cases bs <;> simp_all
    have h0 := h 0 (by omega)
    simp only [Nat.add_zero] at h0
    have := ih (s := s.setByte a b) (a := a + 1) (bs := bs) (by simpa using hk)
      (by simpa [Nat.add_assoc, Nat.add_comm 1] using hf)
      (fun j hj => by simpa [Nat.add_assoc, Nat.add_comm 1] using h (j + 1) (by omega))
    simp [State.writeBytes, State.memWrite, h0, this, Nat.add_assoc, Nat.add_comm 1]

/-- A fault of `writeBytes` is a write to an address that may not be written. -/
theorem State.writeBytes_error_inv {s : State} {a : Nat} {bs : List Byte} {f : Fault} (h : s.writeBytes a bs = .error f) :
    ∃ k < bs.length, valid (a + k) = false ∧ f = .outOfRangeAccess (a + k) .write s.pc := by
  induction bs generalizing s a with
  | nil => simp [State.writeBytes] at h
  | cons b bs ih =>
    simp only [State.writeBytes] at h
    cases hm : s.memWrite a b with
    | error g =>
      rw [hm] at h
      obtain ⟨hv, rfl⟩ := State.memWrite_error_iff.1 hm
      cases h
      exact ⟨0, by simp, by simpa using hv, by simp⟩
    | ok s' =>
      rw [hm] at h
      obtain ⟨hv, rfl⟩ := State.memWrite_ok_iff.1 hm
      obtain ⟨k, hk, hf, he⟩ := ih h
      exact ⟨k + 1, by simpa using hk, by simpa [Nat.add_assoc, Nat.add_comm 1] using hf,
        by simpa [Nat.add_assoc, Nat.add_comm 1] using he⟩

/-! ## Call stack -/

/-- `push` answers exactly when SP < 16: the slot at SP is written and SP grows by one. -/
theorem State.push_ok_iff {s t : State} {w : Word} :
    s.push w = .ok t ↔ ∃ h : s.sp.val < 16,
      t = { s with stack := s.stack.set s.sp.val w, sp := ⟨s.sp.val + 1, by omega⟩ } := by
  unfold State.push
  split <;> rename_i h
  · simp [h]; exact eq_comm
  · simp [h]

theorem State.push_error_iff {s : State} {w : Word} {f : Fault} :
    s.push w = .error f ↔ ¬ s.sp.val < 16 ∧ f = .stackOverflow s.pc := by
  unfold State.push
  split <;> rename_i h
  · simp [h]
  · simp [h]; exact eq_comm

/-- `pop` answers exactly when SP > 0: the slot below SP, with SP smaller by one and every slot kept. -/
theorem State.pop_ok_iff {s : State} {r : Word × State} :
    s.pop = .ok r ↔ ∃ _ : s.sp.val ≠ 0,
      r = (s.stack[s.sp.val - 1]'(by omega), { s with sp := ⟨s.sp.val - 1, by omega⟩ }) := by
  unfold State.pop
  split <;> rename_i h
  · simp [h]
  · simp [h]; exact eq_comm

theorem State.pop_error_iff {s : State} {f : Fault} :
    s.pop = .error f ↔ s.sp.val = 0 ∧ f = .stackUnderflow s.pc := by
  unfold State.pop
  split <;> rename_i h
  · simp [h]; exact eq_comm
  · simp [h]

/-! ## Operand forms -/

theorem State.digitOf_ok_iff {s : State} {x : RegIdx} {d : Fin 16} :
    s.digitOf x = .ok d ↔ (s.reg x).toNat = d.val := by
  unfold State.digitOf
  split
  · simp [Fin.ext_iff]
  · simp only [reduceCtorEq, false_iff]; omega

theorem State.digitOf_error_iff {s : State} {x : RegIdx} {f : Fault} :
    s.digitOf x = .error f ↔ 15 < (s.reg x).toNat ∧ f = .operandOutOfRange (s.reg x) s.pc := by
  unfold State.digitOf
  split
  · simp only [reduceCtorEq, false_iff]; omega
  · simp only [Except.error.injEq, eq_comm]
    exact ⟨fun h => ⟨by omega, h⟩, fun h => h.2⟩

theorem State.lowestKey_eq_none_iff {s : State} : s.lowestKey = none ↔ ∀ k, s.key k = false := by
  simp [State.lowestKey]

theorem State.lowestKey_eq_some_iff {s : State} {k : Fin 16} :
    s.lowestKey = some k ↔ s.key k = true ∧ ∀ j < k, s.key j = false := by
  unfold State.lowestKey
  constructor
  · intro h
    refine ⟨List.find?_some h, fun j hj => ?_⟩
    rw [List.find?_eq_some_iff_getElem] at h
    obtain ⟨-, i, hi, hk, hlt⟩ := h
    have hki : k.val = i := by rw [← hk]; simp
    have := hlt j.val (by rw [← hki]; exact hj)
    simpa using this
  · rintro ⟨hk, hlt⟩
    rw [List.find?_eq_some_iff_getElem]
    exact ⟨hk, k.val, by simp, by simp, fun j hj => by simpa using hlt ⟨j, by omega⟩ hj⟩

/-! ## Blocks of registers -/

@[simp] theorem State.regsUpTo_length (s : State) (x : RegIdx) : (s.regsUpTo x).length = x.val + 1 := by
  simp [State.regsUpTo]

theorem State.regsUpTo_getD (s : State) (x : RegIdx) (r : RegIdx) (h : r ≤ x) :
    (s.regsUpTo x).getD r.val 0 = s.reg r := by
  have : r.val < x.val + 1 := Nat.lt_succ_of_le h
  simp [State.regsUpTo, List.getD_eq_getElem?_getD, this]

/-- `loadRegs` changes the V registers only. -/
theorem State.loadRegs_eq (s : State) (k : Nat) (bs : List Byte) :
    s.loadRegs k bs = { s with v := (s.loadRegs k bs).v } := by
  induction bs generalizing s k with
  | nil => rfl
  | cons b bs ih =>
    simp only [State.loadRegs]
    rw [ih]
    simp [State.setReg]

theorem State.reg_loadRegs (s : State) (k : Nat) (bs : List Byte) (h : k + bs.length ≤ 16) (r : RegIdx) :
    (s.loadRegs k bs).reg r = if k ≤ r.val ∧ r.val < k + bs.length then bs.getD (r.val - k) 0 else s.reg r := by
  induction bs generalizing s k with
  | nil =>
    rw [if_neg (by simp)]; rfl
  | cons b bs ih =>
    simp only [List.length_cons] at h
    simp only [State.loadRegs, ih _ _ (by omega : k + 1 + bs.length ≤ 16), State.reg_setReg, List.length_cons]
    have hk : r = Fin.ofNat 16 k ↔ r.val = k := by
      simp only [Fin.ext_iff, Fin.val_ofNat]; omega
    simp only [hk]
    by_cases h1 : r.val = k
    · rw [if_neg (by omega), if_pos h1, if_pos (by omega), h1]; simp
    · by_cases h2 : k + 1 ≤ r.val ∧ r.val < k + 1 + bs.length
      · rw [if_pos h2, if_pos (by omega)]
        obtain ⟨j, hj⟩ : ∃ j, r.val - k = j + 1 := ⟨r.val - k - 1, by omega⟩
        rw [hj, show r.val - (k + 1) = j by omega]
        simp
      · rw [if_neg h2, if_neg h1, if_neg (by omega)]

/-- `incrementI` changes I only, and only under the parameter. -/
theorem State.incrementI_eq (s : State) (n : Nat) :
    s.incrementI n = s.setI (if s.params.loadStoreIncrementsI then s.i + BitVec.ofNat 16 n else s.i) := by
  unfold State.incrementI
  split <;> rfl

/-! ## How a step ends -/

theorem State.done_eq (s : State) : s.done = .next (s.advance 2) := rfl

theorem State.skipIf_eq (s : State) (c : Bool) : s.skipIf c = .next (s.advance (if c then 4 else 2)) := rfl

theorem State.jump_eq (s : State) (w : Word) : s.jump w = .next (s.setPc w) := rfl

end Sys2Proof.Machine
end

