-- ==== Sys2Proof/Laws/Exec.lean ====
section
/-! SUPPORT. What each meaning that can fault does when it answers a next state, and what a step does; the other meanings answer a next state by unfolding. -/
namespace Sys2Proof.Machine

theorem execRet_next {s t : State} (h : execRet s = .next t) :
    ∃ _ : s.sp.val ≠ 0,
      t = ({ s with sp := ⟨s.sp.val - 1, by omega⟩ } : State).setPc (s.stack[s.sp.val - 1]'(by omega)) := by
  obtain ⟨r, h1, h2⟩ := orRaise_next_iff.1 h
  obtain ⟨h3, rfl⟩ := State.pop_ok_iff.1 h1
  exact ⟨h3, (Host.Outcome.next.inj h2).symm⟩

theorem execCallAddr_next {nnn : Addr12} {s t : State} (h : execCallAddr nnn s = .next t) :
    ∃ _ : s.sp.val < 16,
      t = ({ s with stack := s.stack.set s.sp.val (s.pc + 2), sp := ⟨s.sp.val + 1, by omega⟩ } : State).setPc
        (zextAddr nnn) := by
  obtain ⟨r, h1, h2⟩ := orRaise_next_iff.1 h
  obtain ⟨h3, rfl⟩ := State.push_ok_iff.1 h1
  exact ⟨h3, (Host.Outcome.next.inj h2).symm⟩

theorem execSkpVx_next {x : RegIdx} {s t : State} (h : execSkpVx x s = .next t) :
    ∃ k, s.digitOf x = .ok k ∧ t = s.advance (if s.key k then 4 else 2) := by
  obtain ⟨k, h1, h2⟩ := orRaise_next_iff.1 h
  exact ⟨k, h1, (Host.Outcome.next.inj h2).symm⟩

theorem execSknpVx_next {x : RegIdx} {s t : State} (h : execSknpVx x s = .next t) :
    ∃ k, s.digitOf x = .ok k ∧ t = s.advance (if !s.key k then 4 else 2) := by
  obtain ⟨k, h1, h2⟩ := orRaise_next_iff.1 h
  exact ⟨k, h1, (Host.Outcome.next.inj h2).symm⟩

theorem execLdFVx_next {x : RegIdx} {s t : State} (h : execLdFVx x s = .next t) :
    ∃ d, s.digitOf x = .ok d ∧ t = (s.setI (glyphAddr d)).advance 2 := by
  obtain ⟨d, h1, h2⟩ := orRaise_next_iff.1 h
  exact ⟨d, h1, (Host.Outcome.next.inj h2).symm⟩

theorem execLdBVx_next {x : RegIdx} {s t : State} (h : execLdBVx x s = .next t) :
    (∀ k < 3, valid (s.indexAddr + k) = true) ∧
      t = (s.setBytes s.indexAddr (decimalDigits (s.reg x))).advance 2 := by
  obtain ⟨r, h1, h2⟩ := orRaise_next_iff.1 h
  obtain ⟨h3, rfl⟩ := State.writeBytes_ok_iff.1 h1
  exact ⟨h3, (Host.Outcome.next.inj h2).symm⟩

theorem execLdMemIVx_next {x : RegIdx} {s t : State} (h : execLdMemIVx x s = .next t) :
    (∀ k < x.val + 1, valid (s.indexAddr + k) = true) ∧
      t = ((s.setBytes s.indexAddr (s.regsUpTo x)).incrementI (x.val + 1)).advance 2 := by
  obtain ⟨r, h1, h2⟩ := orRaise_next_iff.1 h
  obtain ⟨h3, rfl⟩ := State.writeBytes_ok_iff.1 h1
  exact ⟨by simpa using h3, (Host.Outcome.next.inj h2).symm⟩

theorem execLdVxMemI_next {x : RegIdx} {s t : State} (h : execLdVxMemI x s = .next t) :
    ∃ bs, s.readBytes s.indexAddr (x.val + 1) = .ok bs ∧
      t = ((s.loadRegs 0 bs).incrementI (x.val + 1)).advance 2 := by
  obtain ⟨bs, h1, h2⟩ := orRaise_next_iff.1 h
  exact ⟨bs, h1, (Host.Outcome.next.inj h2).symm⟩

theorem execDrwVxVyNibble_next {x y : RegIdx} {n : Nibble} {s t : State} (h : execDrwVxVyNibble x y n s = .next t) :
    ∃ rows d, s.readBytes s.indexAddr n.toNat = .ok rows ∧
      d = drawSprite (s.reg x).toNat (s.reg y).toNat rows (s.fb, false) ∧
      t = ((s.setFb d.1).setFlag d.2).advance 2 := by
  obtain ⟨rows, h1, h2⟩ := orRaise_next_iff.1 h
  exact ⟨rows, _, h1, rfl, (Host.Outcome.next.inj h2).symm⟩

theorem execLdVxK_next {x : RegIdx} {s t : State} (h : execLdVxK x s = .next t) :
    (∃ k, s.lowestKey = some k ∧ t = (s.setReg x (BitVec.ofNat 8 k.val)).advance 2) ∨
      (s.lowestKey = none ∧ t = s.advance 0) := by
  unfold execLdVxK at h
  split at h
  · rename_i k hk; exact .inl ⟨k, hk, (Host.Outcome.next.inj h).symm⟩
  · rename_i hk; exact .inr ⟨hk, (Host.Outcome.next.inj h).symm⟩

/-! ## The step -/

theorem State.fetchInstr_ok_iff {s : State} {i : Instr} :
    s.fetchInstr = .ok i ↔ ∃ hi lo, s.fetchByte s.pc.toNat = .ok hi ∧ s.fetchByte (s.pc.toNat + 1) = .ok lo ∧
      decode s.params.haltWords (wordOfBytes hi lo) = .ok i := by
  unfold State.fetchInstr State.fetchWord
  cases h1 : s.fetchByte s.pc.toNat with
  | error f => simp
  | ok hi =>
    cases h2 : s.fetchByte (s.pc.toNat + 1) with
    | error f => simp
    | ok lo =>
      simp only [State.decodeWord]
      cases h3 : decode s.params.haltWords (wordOfBytes hi lo) <;> simp [h3]

/-- An enabled step fetches, decodes and executes. -/
theorem step_of_enabled {s : State} (h : s.Enabled) : step s = orRaise s.fetchInstr (fun i => exec i s) := by
  simp [step, State.stepRefused, h.1, h.2]

/-- A step that answers a next state was enabled and executed the instruction it fetched. -/
theorem step_next {s t : State} (h : step s = .next t) :
    s.Enabled ∧ ∃ i, s.fetchInstr = .ok i ∧ exec i s = .next t := by
  have he : s.Enabled := by
    unfold step State.stepRefused at h
    cases hf : s.fault with
    | some f => simp [hf] at h
    | none =>
      cases hr : s.running with
      | false => simp [hf, hr] at h
      | true => exact ⟨hr, hf⟩
  rw [step_of_enabled he] at h
  exact ⟨he, orRaise_next_iff.1 h⟩

end Sys2Proof.Machine
end

