-- ==== Sys2Proof/Laws/Framebuffer.lean ====
section
/-! SUPPORT. The laws of the framebuffer, and what drawing a sprite does to every pixel. -/
namespace Sys2Proof.Machine

@[simp] theorem Framebuffer.pixel_blank (r : Fin 32) (c : Fin 64) : Framebuffer.blank.pixel r c = false := by
  simp [Framebuffer.blank, Framebuffer.pixel]

theorem Framebuffer.pixel_setPixel (fb : Framebuffer) (r r' : Fin 32) (c c' : Fin 64) (b : Bool) :
    (fb.setPixel r c b).pixel r' c' = if r' = r ∧ c' = c then b else fb.pixel r' c' := by
  unfold Framebuffer.setPixel Framebuffer.pixel
  by_cases hr : r' = r
  · subst hr
    by_cases hc : c' = c
    · subst hc; simp
    · have : c.val ≠ c'.val := fun h => hc (Fin.ext h.symm)
      simp [hc, this]
  · have : r.val ≠ r'.val := fun h => hr (Fin.ext h.symm)
    simp [hr, this]

/-- Two framebuffers with the same pixels are the same. -/
theorem Framebuffer.ext_pixel {f g : Framebuffer} (h : ∀ r c, f.pixel r c = g.pixel r c) : f = g := by
  ext r hr c hc
  exact congrArg (· = true) (h ⟨r, hr⟩ ⟨c, hc⟩) |> fun e => by simpa [Framebuffer.pixel] using e

theorem flipPixel_pixel (r r' : Fin 32) (c c' : Fin 64) (acc : Framebuffer × Bool) :
    (flipPixel r c acc).1.pixel r' c' = if r' = r ∧ c' = c then !acc.1.pixel r' c' else acc.1.pixel r' c' := by
  unfold flipPixel
  simp only [Framebuffer.pixel_setPixel]
  split
  · rename_i h; obtain ⟨rfl, rfl⟩ := h; rfl
  · rfl

theorem flipPixel_hit (r : Fin 32) (c : Fin 64) (acc : Framebuffer × Bool) :
    (flipPixel r c acc).2 = (acc.2 || acc.1.pixel r c) := rfl

/-- `d` is `acc` with each pixel that `P` covers flipped once, and the hit set exactly if one of those was 1. -/
structure Flips (P : Fin 32 → Fin 64 → Prop) (acc d : Framebuffer × Bool) : Prop where
  flipped : ∀ r c, P r c → d.1.pixel r c = !acc.1.pixel r c
  kept : ∀ r c, ¬ P r c → d.1.pixel r c = acc.1.pixel r c
  hit : d.2 = true ↔ acc.2 = true ∨ ∃ r c, P r c ∧ acc.1.pixel r c = true

theorem Flips.nothing (acc : Framebuffer × Bool) {P : Fin 32 → Fin 64 → Prop} (h : ∀ r c, ¬ P r c) :
    Flips P acc acc :=
  ⟨fun r c hp => absurd hp (h r c), fun _ _ _ => rfl, by simp [h]⟩

/-- Flipping two disjoint sets of pixels one after the other flips their union. -/
theorem Flips.trans {P Q R : Fin 32 → Fin 64 → Prop} {a b c : Framebuffer × Bool} (h1 : Flips P a b) (h2 : Flips Q b c)
    (hd : ∀ r k, P r k → ¬ Q r k) (hR : ∀ r k, R r k ↔ P r k ∨ Q r k) : Flips R a c := by
  refine ⟨fun r k hr => ?_, fun r k hr => ?_, ?_⟩
  · rcases (hR r k).1 hr with hp | hq
    · rw [h2.kept r k (hd r k hp), h1.flipped r k hp]
    · rw [h2.flipped r k hq, h1.kept r k (fun hp => hd r k hp hq)]
  · have := mt (hR r k).2 hr
    push Not at this
    rw [h2.kept r k this.2, h1.kept r k this.1]
  · rw [h2.hit, h1.hit, or_assoc]
    refine or_congr_right ⟨?_, ?_⟩
    · rintro (⟨r, k, hp, hk⟩ | ⟨r, k, hq, hk⟩)
      · exact ⟨r, k, (hR r k).2 (.inl hp), hk⟩
      · exact ⟨r, k, (hR r k).2 (.inr hq), by rwa [h1.kept r k (fun hp => hd r k hp hq)] at hk⟩
    · rintro ⟨r, k, hr, hk⟩
      rcases (hR r k).1 hr with hp | hq
      · exact .inl ⟨r, k, hp, hk⟩
      · exact .inr ⟨r, k, hq, by rwa [h1.kept r k (fun hp => hd r k hp hq)]⟩

theorem flipPixel_flips (r : Fin 32) (c : Fin 64) (acc : Framebuffer × Bool) :
    Flips (fun r' c' => r' = r ∧ c' = c) acc (flipPixel r c acc) := by
  refine ⟨fun r' c' h => by simp [flipPixel_pixel, h], fun r' c' h => by simp [flipPixel_pixel, h], ?_⟩
  simp [flipPixel_hit]

/-- The pixels the columns `cols` of one sprite row cover. -/
def RowCovers (b : Byte) (x y : Nat) (cols : List Nat) (r : Fin 32) (c : Fin 64) : Prop :=
  ∃ col ∈ cols, spriteBit b col = true ∧ wrapRow y = r ∧ wrapCol (x + col) = c

theorem drawBits_flips (x y : Nat) (b : Byte) (cols : List Nat)
    (hd : cols.Pairwise (fun p q => wrapCol (x + p) ≠ wrapCol (x + q))) (acc : Framebuffer × Bool) :
    Flips (RowCovers b x y cols) acc (cols.foldl (drawBit x y b) acc) := by
  induction cols generalizing acc with
  | nil => exact Flips.nothing acc (by simp [RowCovers])
  | cons col cols ih =>
    obtain ⟨hc, hcs⟩ := List.pairwise_cons.1 hd
    simp only [List.foldl_cons]
    by_cases hb : spriteBit b col = true
    · have h1 := flipPixel_flips (wrapRow y) (wrapCol (x + col)) acc
      have hbit : drawBit x y b acc col = flipPixel (wrapRow y) (wrapCol (x + col)) acc := by simp [drawBit, hb]
      rw [hbit]
      refine h1.trans (ih hcs _) ?_ ?_
      · rintro r k ⟨rfl, rfl⟩ ⟨q, hq, -, -, he⟩
        exact hc q hq he.symm
      · intro r k
        simp only [RowCovers, List.mem_cons]
        constructor
        · rintro ⟨q, rfl | hq, h1, h2, h3⟩
          · exact .inl ⟨h2.symm, h3.symm⟩
          · exact .inr ⟨q, hq, h1, h2, h3⟩
        · rintro (⟨rfl, rfl⟩ | ⟨q, hq, h⟩)
          · exact ⟨col, .inl rfl, hb, rfl, rfl⟩
          · exact ⟨q, .inr hq, h⟩
    · have hbit : drawBit x y b acc col = acc := by simp [drawBit, hb]
      rw [hbit]
      refine (Flips.nothing acc (P := fun _ _ => False) (by simp)).trans (ih hcs _) (by simp) ?_
      intro r k
      simp only [RowCovers, List.mem_cons, false_or]
      constructor
      · rintro ⟨q, rfl | hq, h1, h⟩
        · exact absurd h1 hb
        · exact ⟨q, hq, h1, h⟩
      · rintro ⟨q, hq, h⟩
        exact ⟨q, .inr hq, h⟩

theorem wrapCol_eq_iff (n : Nat) (c : Fin 64) : wrapCol n = c ↔ n % 64 = c.val := by
  simp [wrapCol, Fin.ext_iff]

theorem wrapRow_eq_iff (n : Nat) (r : Fin 32) : wrapRow n = r ↔ n % 32 = r.val := by
  simp [wrapRow, Fin.ext_iff]

theorem drawRow_flips (x y : Nat) (b : Byte) (acc : Framebuffer × Bool) :
    Flips (RowCovers b x y (List.range 8)) acc (drawRow x y b acc) := by
  refine drawBits_flips x y b _ ?_ acc
  refine List.pairwise_lt_range.imp_of_mem (fun {p q} hp hq hlt h => ?_)
  rw [wrapCol_eq_iff] at h
  simp only [wrapCol, Fin.val_ofNat] at h
  simp only [List.mem_range] at hp hq
  omega

/-- Drawing a sprite of at most 32 rows flips each pixel it covers once, and hits exactly if one of them was 1. -/
theorem drawSprite_flips (x y : Nat) (rows : List Byte) (hlen : rows.length ≤ 32) (acc : Framebuffer × Bool) :
    Flips (SpriteCovers rows x y) acc (drawSprite x y rows acc) := by
  induction rows generalizing y acc with
  | nil => exact Flips.nothing acc (by simp [SpriteCovers])
  | cons b rows ih =>
    simp only [List.length_cons] at hlen
    refine (drawRow_flips x y b acc).trans (ih (y + 1) (by omega) _) ?_ ?_
    · rintro r c ⟨_, _, -, h1, -⟩ ⟨k, hk, _, _, -, h2, -⟩
      rw [wrapRow_eq_iff] at h1
      omega
    · intro r c
      simp only [SpriteCovers, RowCovers, List.mem_range, wrapRow_eq_iff, wrapCol_eq_iff, spriteBit, List.length_cons]
      constructor
      · rintro ⟨k, hk, col, hc, h1, h2, h3⟩
        cases k with
        | zero => exact .inl ⟨col, hc, by simpa using h1, by simpa using h2, h3⟩
        | succ k => exact .inr ⟨k, by omega, col, hc, by simpa using h1, by rw [← h2]; congr 1; omega, h3⟩
      · rintro (⟨col, hc, h1, h2, h3⟩ | ⟨k, hk, col, hc, h1, h2, h3⟩)
        · exact ⟨0, by omega, col, hc, by simpa using h1, by simpa using h2, h3⟩
        · exact ⟨k + 1, by omega, col, hc, by simpa using h1, by rw [← h2]; congr 1; omega, h3⟩

end Sys2Proof.Machine
end

