-- ==== Sys2Proof/Laws/PerInstr.lean ====
section
/-! SUPPORT. One family of statements per instruction, about its syntax and encoding: the word the encoder gives carries the fixed bits of its row of opcode_table.json. -/
namespace Sys2Proof.Laws

/-- The "fixed" fields of an instruction's row in opcode_table.json, each (hi, lo, value). -/
def tableFixed : Instr → List (Nat × Nat × Nat)
  | .halt _ => [(15, 12, 0x0)]
  | .cls => [(15, 0, 0x00E0)]
  | .ret => [(15, 0, 0x00EE)]
  | .jpAddr _ => [(15, 12, 0x1)]
  | .callAddr _ => [(15, 12, 0x2)]
  | .seVxByte _ _ => [(15, 12, 0x3)]
  | .sneVxByte _ _ => [(15, 12, 0x4)]
  | .seVxVy _ _ => [(15, 12, 0x5), (3, 0, 0x0)]
  | .ldVxByte _ _ => [(15, 12, 0x6)]
  | .addVxByte _ _ => [(15, 12, 0x7)]
  | .ldVxVy _ _ => [(15, 12, 0x8), (3, 0, 0x0)]
  | .orVxVy _ _ => [(15, 12, 0x8), (3, 0, 0x1)]
  | .andVxVy _ _ => [(15, 12, 0x8), (3, 0, 0x2)]
  | .xorVxVy _ _ => [(15, 12, 0x8), (3, 0, 0x3)]
  | .addVxVy _ _ => [(15, 12, 0x8), (3, 0, 0x4)]
  | .subVxVy _ _ => [(15, 12, 0x8), (3, 0, 0x5)]
  | .shrVxVy _ _ => [(15, 12, 0x8), (3, 0, 0x6)]
  | .subnVxVy _ _ => [(15, 12, 0x8), (3, 0, 0x7)]
  | .shlVxVy _ _ => [(15, 12, 0x8), (3, 0, 0xE)]
  | .sneVxVy _ _ => [(15, 12, 0x9), (3, 0, 0x0)]
  | .ldIAddr _ => [(15, 12, 0xA)]
  | .jpV0Addr _ => [(15, 12, 0xB)]
  | .rndVxByte _ _ => [(15, 12, 0xC)]
  | .drwVxVyNibble _ _ _ => [(15, 12, 0xD)]
  | .skpVx _ => [(15, 12, 0xE), (7, 0, 0x9E)]
  | .sknpVx _ => [(15, 12, 0xE), (7, 0, 0xA1)]
  | .ldVxDt _ => [(15, 12, 0xF), (7, 0, 0x07)]
  | .ldVxK _ => [(15, 12, 0xF), (7, 0, 0x0A)]
  | .ldDtVx _ => [(15, 12, 0xF), (7, 0, 0x15)]
  | .ldStVx _ => [(15, 12, 0xF), (7, 0, 0x18)]
  | .addIVx _ => [(15, 12, 0xF), (7, 0, 0x1E)]
  | .ldFVx _ => [(15, 12, 0xF), (7, 0, 0x29)]
  | .ldBVx _ => [(15, 12, 0xF), (7, 0, 0x33)]
  | .ldMemIVx _ => [(15, 12, 0xF), (7, 0, 0x55)]
  | .ldVxMemI _ => [(15, 12, 0xF), (7, 0, 0x65)]

/-- A word carries the fixed bits of a row. -/
def carriesFixed (w : Word) (fs : List (Nat × Nat × Nat)) : Prop :=
  ∀ f ∈ fs, w.toNat / 2 ^ f.2.1 % 2 ^ (f.1 + 1 - f.2.1) = f.2.2

theorem fixedBits_eq (w : Word) (lo n : Nat) : w.toNat / 2 ^ lo % 2 ^ n = (w.extractLsb' lo n).toNat := by
  simp [BitVec.extractLsb'_toNat, Nat.shiftRight_eq_div_pow]

theorem carriesFixed_formA (g : Nibble) (nnn : Addr12) : carriesFixed (formA g nnn) [(15, 12, g.toNat)] := by
  simp only [carriesFixed, List.mem_singleton, forall_eq, fixedBits_eq]
  exact congrArg BitVec.toNat (fieldGroup_formA g nnn)

theorem carriesFixed_formXNN (g : Nibble) (x : RegIdx) (nn : Byte) :
    carriesFixed (formXNN g x nn) [(15, 12, g.toNat)] := by
  simp only [carriesFixed, List.mem_singleton, forall_eq, fixedBits_eq]
  exact congrArg BitVec.toNat (fieldGroup_formXNN g x nn)

theorem carriesFixed_formXff (g : Nibble) (x : RegIdx) (ff : Byte) :
    carriesFixed (formXff g x ff) [(15, 12, g.toNat), (7, 0, ff.toNat)] := by
  simp only [carriesFixed, List.forall_mem_cons, List.not_mem_nil, false_imp_iff, implies_true, and_true, fixedBits_eq]
  exact ⟨congrArg BitVec.toNat (fieldGroup_formXNN g x ff), congrArg BitVec.toNat (fieldNN_formXNN g x ff)⟩

theorem carriesFixed_formXY (g : Nibble) (x y : RegIdx) (f : Nibble) :
    carriesFixed (formXY g x y f) [(15, 12, g.toNat), (3, 0, f.toNat)] := by
  simp only [carriesFixed, List.forall_mem_cons, List.not_mem_nil, false_imp_iff, implies_true, and_true, fixedBits_eq]
  exact ⟨congrArg BitVec.toNat (fieldGroup_formXY g x y f), congrArg BitVec.toNat (fieldN_formXY g x y f)⟩

/-- The instruction's encoding carries the fixed bits of its row. -/
def TableWord.Statement (i : Instr) : Prop := carriesFixed (encode i) (tableFixed i)

theorem TableWord.halt (nnn : Addr12) : TableWord.Statement (.halt nnn) := carriesFixed_formA 0x0 nnn
theorem TableWord.cls : TableWord.Statement .cls := by simp [TableWord.Statement, carriesFixed, encode, tableFixed]
theorem TableWord.ret : TableWord.Statement .ret := by simp [TableWord.Statement, carriesFixed, encode, tableFixed]
theorem TableWord.jpAddr (nnn : Addr12) : TableWord.Statement (.jpAddr nnn) := carriesFixed_formA 0x1 nnn
theorem TableWord.callAddr (nnn : Addr12) : TableWord.Statement (.callAddr nnn) := carriesFixed_formA 0x2 nnn
theorem TableWord.seVxByte (x : RegIdx) (nn : Byte) : TableWord.Statement (.seVxByte x nn) := carriesFixed_formXNN 0x3 x nn
theorem TableWord.sneVxByte (x : RegIdx) (nn : Byte) : TableWord.Statement (.sneVxByte x nn) := carriesFixed_formXNN 0x4 x nn
theorem TableWord.seVxVy (x y : RegIdx) : TableWord.Statement (.seVxVy x y) := carriesFixed_formXY 0x5 x y 0x0
theorem TableWord.ldVxByte (x : RegIdx) (nn : Byte) : TableWord.Statement (.ldVxByte x nn) := carriesFixed_formXNN 0x6 x nn
theorem TableWord.addVxByte (x : RegIdx) (nn : Byte) : TableWord.Statement (.addVxByte x nn) := carriesFixed_formXNN 0x7 x nn
theorem TableWord.ldVxVy (x y : RegIdx) : TableWord.Statement (.ldVxVy x y) := carriesFixed_formXY 0x8 x y 0x0
theorem TableWord.orVxVy (x y : RegIdx) : TableWord.Statement (.orVxVy x y) := carriesFixed_formXY 0x8 x y 0x1
theorem TableWord.andVxVy (x y : RegIdx) : TableWord.Statement (.andVxVy x y) := carriesFixed_formXY 0x8 x y 0x2
theorem TableWord.xorVxVy (x y : RegIdx) : TableWord.Statement (.xorVxVy x y) := carriesFixed_formXY 0x8 x y 0x3
theorem TableWord.addVxVy (x y : RegIdx) : TableWord.Statement (.addVxVy x y) := carriesFixed_formXY 0x8 x y 0x4
theorem TableWord.subVxVy (x y : RegIdx) : TableWord.Statement (.subVxVy x y) := carriesFixed_formXY 0x8 x y 0x5
theorem TableWord.shrVxVy (x y : RegIdx) : TableWord.Statement (.shrVxVy x y) := carriesFixed_formXY 0x8 x y 0x6
theorem TableWord.subnVxVy (x y : RegIdx) : TableWord.Statement (.subnVxVy x y) := carriesFixed_formXY 0x8 x y 0x7
theorem TableWord.shlVxVy (x y : RegIdx) : TableWord.Statement (.shlVxVy x y) := carriesFixed_formXY 0x8 x y 0xE
theorem TableWord.sneVxVy (x y : RegIdx) : TableWord.Statement (.sneVxVy x y) := carriesFixed_formXY 0x9 x y 0x0
theorem TableWord.ldIAddr (nnn : Addr12) : TableWord.Statement (.ldIAddr nnn) := carriesFixed_formA 0xA nnn
theorem TableWord.jpV0Addr (nnn : Addr12) : TableWord.Statement (.jpV0Addr nnn) := carriesFixed_formA 0xB nnn
theorem TableWord.rndVxByte (x : RegIdx) (nn : Byte) : TableWord.Statement (.rndVxByte x nn) := carriesFixed_formXNN 0xC x nn
theorem TableWord.drwVxVyNibble (x y : RegIdx) (n : Nibble) : TableWord.Statement (.drwVxVyNibble x y n) := fun f hf =>
  carriesFixed_formXY 0xD x y n f (by simp only [tableFixed, List.mem_singleton] at hf; simp [hf])
theorem TableWord.skpVx (x : RegIdx) : TableWord.Statement (.skpVx x) := carriesFixed_formXff 0xE x 0x9E
theorem TableWord.sknpVx (x : RegIdx) : TableWord.Statement (.sknpVx x) := carriesFixed_formXff 0xE x 0xA1
theorem TableWord.ldVxDt (x : RegIdx) : TableWord.Statement (.ldVxDt x) := carriesFixed_formXff 0xF x 0x07
theorem TableWord.ldVxK (x : RegIdx) : TableWord.Statement (.ldVxK x) := carriesFixed_formXff 0xF x 0x0A
theorem TableWord.ldDtVx (x : RegIdx) : TableWord.Statement (.ldDtVx x) := carriesFixed_formXff 0xF x 0x15
theorem TableWord.ldStVx (x : RegIdx) : TableWord.Statement (.ldStVx x) := carriesFixed_formXff 0xF x 0x18
theorem TableWord.addIVx (x : RegIdx) : TableWord.Statement (.addIVx x) := carriesFixed_formXff 0xF x 0x1E
theorem TableWord.ldFVx (x : RegIdx) : TableWord.Statement (.ldFVx x) := carriesFixed_formXff 0xF x 0x29
theorem TableWord.ldBVx (x : RegIdx) : TableWord.Statement (.ldBVx x) := carriesFixed_formXff 0xF x 0x33
theorem TableWord.ldMemIVx (x : RegIdx) : TableWord.Statement (.ldMemIVx x) := carriesFixed_formXff 0xF x 0x55
theorem TableWord.ldVxMemI (x : RegIdx) : TableWord.Statement (.ldVxMemI x) := carriesFixed_formXff 0xF x 0x65

end Sys2Proof.Laws
end

