-- ==== Sys2Proof/Tests/Slice0.lean ====
section
/-! SUPPORT. The model's own tests: the well-formedness smoke test, decoding of words written out bit by bit from 30_encoding R69, single steps against the vectors of 95_test_vectors, and for every statement with hypotheses a witness that meets them. -/
namespace Sys2Proof.Tests
open Sys2Proof.Machine

/-! ## Well-formedness: the one check, on each ill-formed term -/

theorem test_halt_00E0_is_ill_formed : (Instr.halt 0x0E0).wellFormed .standard = false := by decide
theorem test_halt_00EE_is_ill_formed : (Instr.halt 0x0EE).wellFormed .standard = false := by decide
theorem test_halt_unlisted_is_ill_formed : (Instr.halt 0x123).wellFormed (.listed [0x0000]) = false := by decide
theorem test_halt_is_well_formed : (Instr.halt 0x123).wellFormed .standard = true := by decide
theorem test_halt_listed_is_well_formed : (Instr.halt 0).wellFormed (.listed [0x0000]) = true := by decide

/-! ## Decoding: one word per row, its bits from the pattern of R69 with X = A, Y = B, NN = 5C, NNN = ABC, N = 7 -/

theorem test_decode_halt : decodeTableWord 16 0b0000101010111100 = some (.halt 0xABC) := by decide
theorem test_decode_cls : decodeTableWord 16 0b0000000011100000 = some .cls := by decide
theorem test_decode_ret : decodeTableWord 16 0b0000000011101110 = some .ret := by decide
theorem test_decode_jpAddr : decodeTableWord 16 0b0001101010111100 = some (.jpAddr 0xABC) := by decide
theorem test_decode_callAddr : decodeTableWord 16 0b0010101010111100 = some (.callAddr 0xABC) := by decide
theorem test_decode_seVxByte : decodeTableWord 16 0b0011101001011100 = some (.seVxByte 0xA 0x5C) := by decide
theorem test_decode_sneVxByte : decodeTableWord 16 0b0100101001011100 = some (.sneVxByte 0xA 0x5C) := by decide
theorem test_decode_seVxVy : decodeTableWord 16 0b0101101010110000 = some (.seVxVy 0xA 0xB) := by decide
theorem test_decode_ldVxByte : decodeTableWord 16 0b0110101001011100 = some (.ldVxByte 0xA 0x5C) := by decide
theorem test_decode_addVxByte : decodeTableWord 16 0b0111101001011100 = some (.addVxByte 0xA 0x5C) := by decide
theorem test_decode_ldVxVy : decodeTableWord 16 0b1000101010110000 = some (.ldVxVy 0xA 0xB) := by decide
theorem test_decode_orVxVy : decodeTableWord 16 0b1000101010110001 = some (.orVxVy 0xA 0xB) := by decide
theorem test_decode_andVxVy : decodeTableWord 16 0b1000101010110010 = some (.andVxVy 0xA 0xB) := by decide
theorem test_decode_xorVxVy : decodeTableWord 16 0b1000101010110011 = some (.xorVxVy 0xA 0xB) := by decide
theorem test_decode_addVxVy : decodeTableWord 16 0b1000101010110100 = some (.addVxVy 0xA 0xB) := by decide
theorem test_decode_subVxVy : decodeTableWord 16 0b1000101010110101 = some (.subVxVy 0xA 0xB) := by decide
theorem test_decode_shrVxVy : decodeTableWord 16 0b1000101010110110 = some (.shrVxVy 0xA 0xB) := by decide
theorem test_decode_subnVxVy : decodeTableWord 16 0b1000101010110111 = some (.subnVxVy 0xA 0xB) := by decide
theorem test_decode_shlVxVy : decodeTableWord 16 0b1000101010111110 = some (.shlVxVy 0xA 0xB) := by decide
theorem test_decode_sneVxVy : decodeTableWord 16 0b1001101010110000 = some (.sneVxVy 0xA 0xB) := by decide
theorem test_decode_ldIAddr : decodeTableWord 16 0b1010101010111100 = some (.ldIAddr 0xABC) := by decide
theorem test_decode_jpV0Addr : decodeTableWord 16 0b1011101010111100 = some (.jpV0Addr 0xABC) := by decide
theorem test_decode_rndVxByte : decodeTableWord 16 0b1100101001011100 = some (.rndVxByte 0xA 0x5C) := by decide
theorem test_decode_drwVxVyNibble : decodeTableWord 16 0b1101101010110111 = some (.drwVxVyNibble 0xA 0xB 7) := by decide
theorem test_decode_skpVx : decodeTableWord 16 0b1110101010011110 = some (.skpVx 0xA) := by decide
theorem test_decode_sknpVx : decodeTableWord 16 0b1110101010100001 = some (.sknpVx 0xA) := by decide
theorem test_decode_ldVxDt : decodeTableWord 16 0b1111101000000111 = some (.ldVxDt 0xA) := by decide
theorem test_decode_ldVxK : decodeTableWord 16 0b1111101000001010 = some (.ldVxK 0xA) := by decide
theorem test_decode_ldDtVx : decodeTableWord 16 0b1111101000010101 = some (.ldDtVx 0xA) := by decide
theorem test_decode_ldStVx : decodeTableWord 16 0b1111101000011000 = some (.ldStVx 0xA) := by decide
theorem test_decode_addIVx : decodeTableWord 16 0b1111101000011110 = some (.addIVx 0xA) := by decide
theorem test_decode_ldFVx : decodeTableWord 16 0b1111101000101001 = some (.ldFVx 0xA) := by decide
theorem test_decode_ldBVx : decodeTableWord 16 0b1111101000110011 = some (.ldBVx 0xA) := by decide
theorem test_decode_ldMemIVx : decodeTableWord 16 0b1111101001010101 = some (.ldMemIVx 0xA) := by decide
theorem test_decode_ldVxMemI : decodeTableWord 16 0b1111101001100101 = some (.ldVxMemI 0xA) := by decide

/-- T2 to T6, S3: illegal words. -/
theorem test_decode_illegal :
    [0x5121, 0x9121, 0x8128, 0x812F, 0xE100, 0xF1FF, 0xF100].all (fun w => decodeTableWord 16 w = none) = true := by
  decide

/-- R63: one byte is no instruction, and two of three bytes are consumed. -/
theorem test_decode_bytes :
    decodeBytes .standard [0x60] = .error (.truncated 1) ∧
    decodeBytes .standard [0x60, 0x0A, 0x61] = .ok (.ldVxByte 0 0x0A, [0x61]) := ⟨rfl, rfl⟩

/-! ## Steps: the vectors T1 to T82 and S1 to S13 of 95_test_vectors -/

/-- The step of the word `w` at PC answers a next state that `p` accepts. -/
def stepGives (w : Nat) (s : State) (p : State → Bool) : Bool :=
  match step (s.withFetchWord 16 w) with
  | .next t => p t
  | _ => false

/-- The step of the word `w` at PC raises `f`. -/
def stepFaults (w : Nat) (s : State) (f : Fault) : Bool :=
  match step (s.withFetchWord 16 w) with
  | .fault g => g = f
  | _ => false

/-- The reset state with V registers set. -/
def withRegs (l : List (RegIdx × Byte)) : State := l.foldl (fun s r => s.setReg r.1 r.2) State.reset

/-- `n` entries of 0x204 on the stack. -/
def withStack (n : Fin 17) : State := { State.reset with stack := Vector.replicate 16 0x204, sp := n }

/-- Keys pressed. -/
def withKeys (l : List (Fin 16)) (s : State) : State := { s with keys := Vector.ofFn (fun k => l.contains k) }

/-- Defined bytes in memory from `a` on. -/
def withBytes (a : Nat) (bs : List Byte) (s : State) : State := s.setBytes a bs

-- T7
theorem test_halt : stepGives 0x0123 State.reset (fun t => !t.running && t.pc = 0x202) = true := by decide
-- T15, T16
theorem test_ret : stepGives 0x00EE (withStack 1) (fun t => t.pc = 0x204 && t.sp = 0) = true := by decide
theorem test_ret_empty : stepFaults 0x00EE State.reset (.stackUnderflow 0x200) = true := by decide
-- T10
theorem test_jp : stepGives 0x1204 (State.reset.setPc 0x208) (fun t => t.pc = 0x204) = true := by decide
-- T13, T14
theorem test_call : stepGives 0x2300 State.reset
    (fun t => t.pc = 0x300 && t.sp = 1 && t.stack[0] = 0x202) = true := by decide
theorem test_call_full : stepFaults 0x2300 (withStack 16) (.stackOverflow 0x200) = true := by decide
-- T17, S12
theorem test_se_byte : stepGives 0x3105 (withRegs [(1, 5)]) (fun t => t.pc = 0x204) = true := by decide
theorem test_se_byte_not : stepGives 0x3106 (withRegs [(1, 5)]) (fun t => t.pc = 0x202) = true := by decide
-- T18
theorem test_sne_byte : stepGives 0x4105 (withRegs [(1, 5)]) (fun t => t.pc = 0x202) = true := by decide
theorem test_sne_byte_skip : stepGives 0x4106 (withRegs [(1, 5)]) (fun t => t.pc = 0x204) = true := by decide
-- T19, T20
theorem test_se_reg : stepGives 0x5120 (withRegs [(1, 5), (2, 6)]) (fun t => t.pc = 0x202) = true := by decide
theorem test_se_reg_same : stepGives 0x5110 (withRegs [(1, 5)]) (fun t => t.pc = 0x204) = true := by decide
-- T21, T22
theorem test_sne_reg : stepGives 0x9120 (withRegs [(1, 5), (2, 6)]) (fun t => t.pc = 0x204) = true := by decide
theorem test_sne_reg_same : stepGives 0x9110 (withRegs [(1, 5)]) (fun t => t.pc = 0x202) = true := by decide
-- T23, T24
theorem test_jp_v0 : stepGives 0xB300 (withRegs [(0, 4)]) (fun t => t.pc = 0x304) = true := by decide
theorem test_jp_v0_unmasked : stepGives 0xBFFF (withRegs [(0, 0xFF)]) (fun t => t.pc = 0x10FE) = true := by decide
-- T1, T27
theorem test_ld_byte : stepGives 0x600A State.reset (fun t => t.reg 0 = 0x0A && t.pc = 0x202) = true := by decide
theorem test_ld_byte_vf : stepGives 0x6F42 State.reset (fun t => t.reg 15 = 0x42) = true := by decide
-- T28
theorem test_add_byte : stepGives 0x71FF (withRegs [(1, 1), (15, 0x55)])
    (fun t => t.reg 1 = 0 && t.reg 15 = 0x55) = true := by decide
-- the example of R91
theorem test_ld_reg : stepGives 0x8130 (withRegs [(3, 0x42)]) (fun t => t.reg 1 = 0x42) = true := by decide
-- T30
theorem test_or : stepGives 0x8121 (withRegs [(1, 0x0F), (2, 0xF0)]) (fun t => t.reg 1 = 0xFF && t.reg 15 = 0) = true := by
  decide
theorem test_and : stepGives 0x8122 (withRegs [(1, 0x0F), (2, 0xF0)]) (fun t => t.reg 1 = 0) = true := by decide
theorem test_xor : stepGives 0x8123 (withRegs [(1, 0x0F), (2, 0xF0)]) (fun t => t.reg 1 = 0xFF) = true := by decide
-- S4, T34
theorem test_add : stepGives 0x8124 (withRegs [(1, 0xFE), (2, 5)]) (fun t => t.reg 1 = 3 && t.reg 15 = 1) = true := by decide
theorem test_add_vf : stepGives 0x8F14 (withRegs [(15, 0xFF), (1, 1)]) (fun t => t.reg 15 = 1) = true := by decide
-- S7, T38
theorem test_sub : stepGives 0x8125 (withRegs [(1, 3), (2, 7)]) (fun t => t.reg 1 = 0xFC && t.reg 15 = 0) = true := by decide
theorem test_sub_vf : stepGives 0x8F35 (withRegs [(15, 5), (3, 3)]) (fun t => t.reg 15 = 0xFE) = true := by decide
-- T45 under both values of shiftSource
theorem test_shr : stepGives 0x8126 (withRegs [(1, 1), (2, 0xFF)]) (fun t => t.reg 1 = 0 && t.reg 15 = 1) = true := by decide
theorem test_shr_source_y :
    stepGives 0x8126 { withRegs [(1, 1), (2, 0xFF)] with params := { defaultParams with shiftSource := .y } }
      (fun t => t.reg 1 = 0x7F && t.reg 15 = 1) = true := by decide
-- T42, T44
theorem test_subn : stepGives 0x8127 (withRegs [(1, 7), (2, 3)]) (fun t => t.reg 1 = 0xFC && t.reg 15 = 0) = true := by decide
theorem test_subn_y_vf : stepGives 0x81F7 (withRegs [(1, 5), (15, 3)])
    (fun t => t.reg 1 = 0xFB && t.reg 15 = 0) = true := by decide
-- T47, T48
theorem test_shl : stepGives 0x810E (withRegs [(1, 0xFF)]) (fun t => t.reg 1 = 0xFE && t.reg 15 = 1) = true := by decide
theorem test_shl_vf : stepGives 0x8FFE (withRegs [(15, 0x81)]) (fun t => t.reg 15 = 2) = true := by decide
-- T52
theorem test_ld_i : stepGives 0xA123 State.reset (fun t => t.i = 0x123) = true := by decide
-- T50, T51: the draw is a free value, named in the premise
theorem test_rnd (h : Config.rng 0 = 0xB7) : ∃ t, exec (.rndVxByte 3 0x0F) State.reset = .next t ∧ t.reg 3 = 0x07 := by
  refine ⟨_, rfl, ?_⟩
  show Config.rng 0 &&& 0x0F = 0x07
  rw [h]; decide
theorem test_rnd_zero_mask : ∃ t, exec (.rndVxByte 3 0x00) State.reset = .next t ∧ t.reg 3 = 0x00 := by
  refine ⟨_, rfl, ?_⟩
  show Config.rng 0 &&& 0x00 = 0x00
  simp
-- T53, T54
theorem test_add_i : stepGives 0xF11E ((withRegs [(1, 1)]).setI 0xFFFF) (fun t => t.i = 0) = true := by decide
theorem test_add_i_no_flag : stepGives 0xF11E ((withRegs [(1, 0xFF), (15, 0x77)]).setI 0xFFF)
    (fun t => t.i = 0x10FE && t.reg 15 = 0x77) = true := by decide
-- T55, T56
theorem test_ld_f : stepGives 0xF129 (withRegs [(1, 0x0F)]) (fun t => t.i = 0x04B) = true := by decide
theorem test_ld_f_range : stepFaults 0xF129 (withRegs [(1, 0x10)]) (.operandOutOfRange 0x10 0x200) = true := by decide
-- T57, T58
theorem test_ld_b : stepGives 0xF133 ((withRegs [(1, 255)]).setI 0x300)
    (fun t => t.byteAt 0x300 = some 2 && t.byteAt 0x301 = some 5 && t.byteAt 0x302 = some 5) = true := by decide
theorem test_ld_b_edge : stepFaults 0xF133 ((withRegs [(1, 1)]).setI 0xFFE) (.outOfRangeAccess 0x1000 .write 0x200) = true := by
  decide
-- T60, and R107 under loadStoreIncrementsI
theorem test_store : stepGives 0xF255 ((withRegs [(0, 1), (1, 2), (2, 3)]).setI 0x400)
    (fun t => t.byteAt 0x400 = some 1 && t.byteAt 0x402 = some 3 && t.byteAt 0x403 = none && t.i = 0x400) = true := by decide
theorem test_store_increments :
    stepGives 0xF255 { State.reset.setI 0x400 with params := { defaultParams with loadStoreIncrementsI := true } }
      (fun t => t.i = 0x403) = true := by decide
-- T62, T63
theorem test_load : stepGives 0xF465 State.reset
    (fun t => t.reg 0 = 0xF0 && t.reg 1 = 0x90 && t.reg 3 = 0x90 && t.reg 4 = 0xF0) = true := by decide
theorem test_load_reserved : stepFaults 0xF165 (State.reset.setI 0x04F) (.outOfRangeAccess 0x050 .read 0x200) = true := by
  decide
-- T65
theorem test_cls : stepGives 0x00E0 { State.reset with fb := Framebuffer.blank.setPixel 3 5 true }
    (fun t => t.dirty && !t.fb.pixel 3 5) = true := by decide
-- T67, T70
theorem test_drw_wraps : stepGives 0xD011 (withBytes 0x300 [0xFF] ((withRegs [(0, 60), (1, 33)]).setI 0x300))
    (fun t => t.fb.pixel 1 60 && t.fb.pixel 1 63 && t.fb.pixel 1 3 && !t.fb.pixel 1 4 && !t.fb.pixel 1 59
      && t.reg 15 = 0 && t.dirty) = true := by decide
theorem test_drw_reserved : stepFaults 0xD015 (State.reset.setI 0x04E) (.outOfRangeAccess 0x050 .read 0x200) = true := by
  decide
-- T73, T74
theorem test_skp : stepGives 0xE19E (withKeys [5] (withRegs [(1, 5)])) (fun t => t.pc = 0x204) = true := by decide
theorem test_skp_range : stepFaults 0xE19E (withRegs [(1, 0x10)]) (.operandOutOfRange 0x10 0x200) = true := by decide
theorem test_sknp : stepGives 0xE1A1 (withKeys [5] (withRegs [(1, 5)])) (fun t => t.pc = 0x202) = true := by decide
theorem test_sknp_skip : stepGives 0xE1A1 (withRegs [(1, 5)]) (fun t => t.pc = 0x204) = true := by decide
-- T75
theorem test_ld_dt : stepGives 0xF307 (State.reset.setDt 0x3C) (fun t => t.reg 3 = 0x3C) = true := by decide
-- T76, T78
theorem test_ld_k_waits : stepGives 0xF20A (withRegs [(2, 9)]) (fun t => t.pc = 0x200 && t.reg 2 = 9) = true := by decide
theorem test_ld_k_least : stepGives 0xF20A (withKeys [9, 3] State.reset) (fun t => t.reg 2 = 3 && t.pc = 0x202) = true := by
  decide
-- the example of R118, and T79
theorem test_set_dt : stepGives 0xF015 (withRegs [(0, 0x3C)]) (fun t => t.dt = 0x3C && t.st = 0) = true := by decide
theorem test_set_st : stepGives 0xF018 (withRegs [(0, 2)])
    (fun t => t.st = 2 && t.tick.st = 1 && t.tick.tick.tick.st = 0 && t.dt = 0) = true := by decide
-- T8, T9, T26
theorem test_fetch_unset : step State.reset = .fault (.unsetRead 0x200 0x200) := rfl
theorem test_fetch_font : step (State.reset.setPc 0) = .fault (.outOfRangeAccess 0 .fetch 0) := rfl
theorem test_fetch_beyond : step (State.reset.setPc 0x1000) = .fault (.outOfRangeAccess 0x1000 .fetch 0x1000) := rfl
-- T4
theorem test_decode_failure : stepFaults 0x8128 State.reset (.decodeFailure 0x8128 0x200) = true := by decide
-- T81, T82
theorem test_step_after_halt : step State.reset.halt = .refused .stepAfterHalt := rfl
theorem test_key_out_of_range : State.reset.keyEvent 16 true = .refused (.keyOutOfRange 16) := rfl
-- R44, R138: construction with an image, and the diagnostic read of SP and of an 8-bit register
theorem test_construct : construct defaultParams resetV resetI [] = .next State.reset := rfl
theorem test_register_state : (withStack 16).registerState .sp = 16 ∧ (State.reset.setDt 0xFF).registerState .dt = 0x00FF := by
  decide

/-! ## Witnesses: the hypotheses of each statement are met, each clause at a boundary -/

/-- The result is a next state. -/
def isNext : Result → Bool
  | .next _ => true
  | _ => false

/-- An enabled state with V0 := 0x5C as its next instruction, at the last place it can stand. -/
def atEnd : State := (State.reset.setPc 0xFFE).withFetchWord 16 0x605C

theorem witness_decodeInvertsEncode :
    (Instr.halt 0xFFF).wellFormed .standard = true ∧ (Instr.ldVxMemI 15).wellFormed (.listed []) = true := by decide

theorem witness_encodeInvertsDecode : decode .standard 0x0FFF = .ok (.halt 0xFFF) ∧
    decode (.listed []) 0xFF65 = .ok (.ldVxMemI 15) := ⟨rfl, rfl⟩

theorem witness_stepExecutes :
    atEnd.Enabled ∧ 0x200 ≤ atEnd.pc.toNat ∧ atEnd.pc.toNat + 1 ≤ 0xFFF ∧ atEnd.byteAt atEnd.pc.toNat = some 0x60 ∧
    atEnd.byteAt (atEnd.pc.toNat + 1) = some 0x5C ∧
    (0x605C : Word).toNat = 256 * (0x60 : Byte).toNat + (0x5C : Byte).toNat ∧
    decode atEnd.params.haltWords 0x605C = .ok (.ldVxByte 0 0x5C) :=
  ⟨⟨rfl, rfl⟩, by decide, by decide, by decide, by decide, by decide, rfl⟩

theorem witness_stepRefused :
    State.reset.halt.running = false ∧ State.reset.halt.fault = none ∧
    ({ State.reset with fault := some (.stackUnderflow 0x200) } : State).fault = some (.stackUnderflow 0x200) :=
  ⟨rfl, rfl, rfl⟩

theorem witness_fetchFaults :
    State.reset.Enabled ∧
    ¬ (0x200 ≤ (State.reset.setPc 0x1FF).pc.toNat ∧ (State.reset.setPc 0x1FF).pc.toNat ≤ 0xFFF) ∧
    ¬ (0x200 ≤ (State.reset.setPc 0x1000).pc.toNat ∧ (State.reset.setPc 0x1000).pc.toNat ≤ 0xFFF) ∧
    (State.reset.setPc 0xFFF).byteAt 0xFFF = none ∧
    (withBytes 0xFFF [0x60] (State.reset.setPc 0xFFF)).byteAt 0xFFF = some 0x60 ∧
    (withBytes 0xFFE [0x60] (State.reset.setPc 0xFFE)).byteAt 0xFFF = none ∧
    (State.reset.withFetchWord 16 0x8128).byteAt 0x200 = some 0x81 ∧
    (State.reset.withFetchWord 16 0x8128).byteAt 0x201 = some 0x28 ∧
    decode .standard 0x8128 = .error (.decodeFailure 0x8128) :=
  ⟨⟨rfl, rfl⟩, by decide, by decide, by decide, by decide, by decide, by decide, by decide, rfl⟩

theorem witness_faultRecord : ∃ f, step State.reset = .fault f := ⟨_, rfl⟩

theorem witness_stepNext : isNext (step atEnd) = true ∧ isNext (step (State.reset.withFetchWord 16 0x605C)) = true := by decide

theorem witness_haltFault : State.reset.fault = none := rfl

theorem witness_call : State.reset.sp.val < 16 ∧ (withStack 15).sp.val < 16 ∧ (withStack 16).sp.val = 16 := by decide

theorem witness_ret : (withStack 1).sp.val ≠ 0 ∧ (withStack 16).sp.val ≠ 0 ∧ State.reset.sp.val = 0 := by decide

theorem witness_callThenRet : ∃ (t u : State), exec (.callAddr 0x300) (withStack 15) = .next t ∧ u.stack = t.stack ∧ u.sp = t.sp :=
  ⟨_, _, rfl, rfl, rfl⟩

theorem witness_pcAdvances :
    isNext (exec .cls State.reset) = true ∧ transfersControl .cls = false ∧
    isNext (exec (.seVxByte 0 0) State.reset) = true ∧ isSkip (.seVxByte 0 0) = true ∧
    isNext (exec (.ldVxK 0) State.reset) = true ∧ transfersControl (.ldVxK 0) = false := by decide

theorem witness_sub : (1 : Nat) = (if ((withRegs [(1, 7)]).reg 2).toNat ≤ ((withRegs [(1, 7)]).reg 1).toNat then 1 else 0) ∧
    (0 : Nat) = (if ((withRegs [(2, 7)]).reg 2).toNat ≤ ((withRegs [(2, 7)]).reg 1).toNat then 1 else 0) ∧
    (1 : RegIdx) ≠ 15 := by decide

theorem witness_shift :
    (1 : RegIdx) = (if State.reset.params.shiftSource = .x then 1 else 2) ∧
    (15 : RegIdx) = (if ({ defaultParams with shiftSource := .y } : Params).shiftSource = .x then 1 else 15) := by decide

theorem witness_rndFrame : isNext (exec .cls State.reset) = true ∧ ∀ x nn, Instr.cls ≠ .rndVxByte x nn :=
  ⟨rfl, by simp⟩

theorem witness_ldF : ((withRegs [(1, 15)]).reg 1).toNat ≤ 15 ∧ 15 < ((withRegs [(1, 16)]).reg 1).toNat := by decide

theorem witness_allWritable : AllWritable (State.reset.setI 0x200).indexAddr 3 ∧ AllWritable (State.reset.setI 0xFFD).indexAddr 3 ∧
    AllWritable (State.reset.setI 0xFF0).indexAddr ((15 : RegIdx).val + 1) := by
  unfold AllWritable; decide

theorem witness_incrementParameter : State.reset.params.loadStoreIncrementsI = false ∧
    ({ State.reset with params := { defaultParams with loadStoreIncrementsI := true } } : State).params.loadStoreIncrementsI = true :=
  ⟨rfl, rfl⟩

theorem witness_allReadable : (State.reset.setI 0x04F).AllReadable (State.reset.setI 0x04F).indexAddr ((0 : RegIdx).val + 1) ∧
    (withBytes 0xFFF [7] (State.reset.setI 0xFFF)).AllReadable 0xFFF ((0 : RegIdx).val + 1) := by
  constructor
  · intro k hk
    obtain rfl : k = 0 := by simpa using hk
    exact ⟨by decide, 0x80, by decide⟩
  · intro k hk
    obtain rfl : k = 0 := by simpa using hk
    exact ⟨by decide, 7, by decide⟩

theorem witness_loadUndoesStore : ∃ (t u : State), exec (.ldMemIVx 15) (State.reset.setI 0xFF0) = .next t ∧ u.mem = t.mem ∧
    u.params = t.params ∧ u.i = (State.reset.setI 0xFF0).i := ⟨_, _, rfl, rfl, rfl, rfl⟩

theorem witness_storeFaults : AllWritable (State.reset.setI 0xFFE).indexAddr 2 ∧
    ¬ (0x200 ≤ (State.reset.setI 0xFFE).indexAddr + 2 ∧ (State.reset.setI 0xFFE).indexAddr + 2 ≤ 0xFFF) ∧
    2 < 3 ∧ 2 ≤ (2 : RegIdx).val ∧
    AllWritable (State.reset.setI 0x1FF).indexAddr 0 ∧
    ¬ (0x200 ≤ (State.reset.setI 0x1FF).indexAddr + 0 ∧ (State.reset.setI 0x1FF).indexAddr + 0 ≤ 0xFFF) := by
  unfold AllWritable; decide

theorem witness_readFaults :
    (State.reset.setI 0x04F).AllReadable (State.reset.setI 0x04F).indexAddr 1 ∧
    ¬ ((State.reset.setI 0x04F).indexAddr + 1 ≤ 0x04F ∨
      (0x200 ≤ (State.reset.setI 0x04F).indexAddr + 1 ∧ (State.reset.setI 0x04F).indexAddr + 1 ≤ 0xFFF)) ∧
    (State.reset.setI 0x300).AllReadable (State.reset.setI 0x300).indexAddr 0 ∧
    (0x200 ≤ (State.reset.setI 0x300).indexAddr + 0 ∧ (State.reset.setI 0x300).indexAddr + 0 ≤ 0xFFF) ∧
    (State.reset.setI 0x300).byteAt ((State.reset.setI 0x300).indexAddr + 0) = none ∧
    0 < (1 : Nibble).toNat ∧ 1 < (2 : Nibble).toNat ∧ 1 ≤ (1 : RegIdx).val := by
  refine ⟨?_, by decide, fun k hk => absurd hk (by omega), by decide, by decide, by decide, by decide, by decide⟩
  intro k hk
  obtain rfl : k = 0 := by omega
  exact ⟨by decide, 0x80, by decide⟩

theorem witness_memoryBounds : (0x200 ≤ 0x200 ∧ 0x200 ≤ 0xFFF) ∧ (0x200 ≤ 0xFFF ∧ 0xFFF ≤ 0xFFF) ∧
    ¬ (0x200 ≤ 0x1FF ∧ 0x1FF ≤ 0xFFF) ∧ ¬ (0x200 ≤ 0x1000 ∧ 0x1000 ≤ 0xFFF) ∧
    (0x050 ≤ 0x050 ∧ 0x050 ≤ 0x1FF) ∧ (0x050 ≤ 0x1FF ∧ 0x1FF ≤ 0x1FF) := by decide

theorem witness_font : (0x04F ≤ 0x04F) ∧ 0x1FF < 0x200 ∧ isNext (step atEnd) = true ∧
    isNext (construct defaultParams resetV resetI [0x60]) = true ∧ isNext (State.reset.apply .tick) = true ∧
    State.reset.tick.fault = none := by decide

theorem witness_drw :
    [(0xF0 : Byte), 0x80].length = (2 : Nibble).toNat ∧
    (∀ k < (2 : Nibble).toNat, ((State.reset.setI 0x04B).indexAddr + k ≤ 0x04F ∨
        (0x200 ≤ (State.reset.setI 0x04B).indexAddr + k ∧ (State.reset.setI 0x04B).indexAddr + k ≤ 0xFFF)) ∧
      (State.reset.setI 0x04B).byteAt ((State.reset.setI 0x04B).indexAddr + k) = some ([(0xF0 : Byte), 0x80].getD k 0)) ∧
    ([] : List Byte).length = (0 : Nibble).toNat := by decide

theorem witness_drwCovers :
    SpriteCovers [0xF0, 0x80] 62 31 0 62 ∧ SpriteCovers [0xF0, 0x80] 62 31 31 1 ∧
    ({ State.reset with fb := Framebuffer.blank.setPixel 31 1 true } : State).fb.pixel 31 1 = true :=
  ⟨⟨1, by decide, 0, by decide, by decide⟩, ⟨0, by decide, 3, by decide, by decide⟩, by decide⟩

theorem witness_drwNotCovered : ¬ SpriteCovers [0x80] 62 31 0 62 := by
  rintro ⟨k, hk, col, hc, h1, h2, h3⟩
  simp at hk hc
  subst hk
  simp at h2

theorem witness_drawTwice : ∃ (t u : State), exec (.drwVxVyNibble 0 1 5) State.reset = .next t ∧ u.fb = t.fb ∧ u.mem = t.mem ∧
    u.params = t.params ∧ u.i = t.i ∧ u.reg 0 = State.reset.reg 0 ∧ u.reg 1 = State.reset.reg 1 ∧
    State.reset.fb.pixel 0 0 = false ∧ t.fb.pixel 0 0 = true :=
  ⟨_, _, rfl, rfl, rfl, rfl, rfl, rfl, rfl, by decide, by decide⟩

theorem witness_keySkips : ((withRegs [(1, 0)]).reg 1).toNat = (0 : Fin 16).val ∧
    ((withRegs [(1, 15)]).reg 1).toNat = (15 : Fin 16).val ∧ 15 < ((withRegs [(1, 16)]).reg 1).toNat := by decide

theorem witness_keyWait : (withKeys [15] State.reset).key 15 = true ∧ (∀ j < (15 : Fin 16), (withKeys [15] State.reset).key j = false) ∧
    ∀ k, State.reset.key k = false := by decide

theorem witness_frames :
    isNext (exec .cls State.reset) = true ∧ writesReg 15 .cls = false ∧ writesI defaultParams .cls = false ∧
    isNext (exec (.ldVxMemI 0) State.reset) = true ∧ writesReg 1 (.ldVxMemI 0) = false ∧
    writesI defaultParams (.ldVxMemI 0) = false ∧
    (∀ nnn, Instr.cls ≠ .callAddr nnn) ∧ Instr.cls ≠ .ret ∧ (∀ x, Instr.cls ≠ .ldDtVx x) ∧ (∀ x, Instr.cls ≠ .ldStVx x) ∧
    (∀ nnn, Instr.cls ≠ .halt nnn) := by
  refine ⟨by decide, by decide, by decide, by decide, by decide, by decide, ?_, ?_, ?_, ?_, ?_⟩ <;> simp

theorem witness_displayFrame : isNext (exec (.halt 0) State.reset) = true ∧ Instr.halt 0 ≠ .cls ∧
    (∀ x y n, Instr.halt 0 ≠ .drwVxVyNibble x y n) ∧ isNext (exec (.drwVxVyNibble 0 0 0) State.reset) = true :=
  ⟨by decide, by simp, by simp, by decide⟩

theorem witness_storedBytes : isNext (exec (.ldBVx 0) (State.reset.setI 0x300)) = true ∧
    ¬ StoresTo (.ldBVx 0) (State.reset.setI 0x300) 0x2FF ∧ ¬ StoresTo (.ldBVx 0) (State.reset.setI 0x300) 0x303 ∧
    StoresTo (.ldBVx 0) (State.reset.setI 0x300) 0x302 := by
  unfold StoresTo; decide

theorem witness_noninterference : isNext (exec .cls State.reset) = true ∧
    (∃ f, exec .ret State.reset = .fault f) ∧ ∀ nnn, Instr.cls ≠ .callAddr nnn := ⟨by decide, ⟨_, rfl⟩, by simp⟩

theorem witness_canonical : atEnd.MemoryCanonical ∧ isNext (step atEnd) = true := by
  unfold State.MemoryCanonical
  decide

theorem witness_session : State.reset.MemoryCanonical ∧
    ∃ t, (State.reset.withFetchWord 16 0x605C).session [.tick, .keyEvent 15 true, .step, .acknowledgeDisplay] = .next t ∧
      t.fault = none := by
  unfold State.MemoryCanonical
  exact ⟨by decide, _, rfl, rfl⟩

theorem witness_fault : (∃ f, step State.reset = .fault f) ∧
    ∃ s t f, s.fault = some f ∧ State.apply s .tick = .next t :=
  ⟨⟨_, rfl⟩, { State.reset with fault := some (.stackUnderflow 0x200) }, _, _, rfl, rfl⟩

theorem witness_construct : (List.replicate 0xE00 (0 : Byte)).length ≤ 0xE00 ∧ 0xE00 < (List.replicate 0xE01 (0 : Byte)).length ∧
    0x200 + ([0x60, 0x0A] : List Byte).length ≤ 0x202 := by
  simp only [List.length_replicate]; decide

theorem witness_hostEvents : (15 < 16) ∧ (16 ≤ 16) := by decide

end Sys2Proof.Tests
end

/-! SUPPORT. What an instruction does when it completes, said once for all 35 (10_state R18 to R37): it makes only the
writes it may make, and then PC moves by the rule of its kind. The frame statements of 10_state are read off this. -/
namespace Sys2Proof.Machine

/-! ## The writes an instruction may make -/

/-- `u` is `s` after any number of the writes that instruction `i` may make, PC aside: each constructor is one named
operation with the condition on `i` (and on the address, for a store) under which the spec allows it. -/
inductive Writes (i : Instr) (s : State) : State → Prop
  | start : Writes i s s
  | reg {u : State} (hu : Writes i s u) (x : RegIdx) (b : Byte) (h : writesReg x i = true) : Writes i s (u.setReg x b)
  | index {u : State} (hu : Writes i s u) (w : Word) (h : writesI s.params i = true) : Writes i s (u.setI w)
  | stack {u : State} (hu : Writes i s u) (slots : Vector Word 16) (n : Fin 17)
      (h : i = .ret ∨ ∃ nnn, i = .callAddr nnn) : Writes i s { u with stack := slots, sp := n }
  | delay {u : State} (hu : Writes i s u) (b : Byte) (h : ∃ x, i = .ldDtVx x) : Writes i s (u.setDt b)
  | sound {u : State} (hu : Writes i s u) (b : Byte) (h : ∃ x, i = .ldStVx x) : Writes i s (u.setSt b)
  | display {u : State} (hu : Writes i s u) (fb : Framebuffer) (h : i = .cls ∨ ∃ x y n, i = .drwVxVyNibble x y n) :
      Writes i s (u.setFb fb)
  | halt {u : State} (hu : Writes i s u) (h : ∃ nnn, i = .halt nnn) : Writes i s u.halt
  | draw {u : State} (hu : Writes i s u) (h : ∃ x nn, i = .rndVxByte x nn) : Writes i s u.drawRng.2
  | byte {u : State} (hu : Writes i s u) (a : Nat) (b : Byte) (hv : valid a = true) (h : StoresTo i s a) :
      Writes i s (u.setByte a b)

/-! In each induction below the writes not named leave the field as it was by computation, so that the goal is the
induction hypothesis. -/

namespace Writes
variable {i : Instr} {s u : State}

theorem reg_eq (hw : Writes i s u) {r : RegIdx} (hi : writesReg r i = false) : u.reg r = s.reg r := by
  induction hw with
  | reg _ x b h ih =>
    have hne : r ≠ x := by rintro rfl; simp [h] at hi
    rw [State.reg_setReg_ne _ hne, ih]
  | start => rfl
  | _ => assumption

theorem index_eq (hw : Writes i s u) (hi : writesI s.params i = false) : u.i = s.i := by
  induction hw with
  | index _ _ h => simp [h] at hi
  | start => rfl
  | _ => assumption

theorem stack_eq (hw : Writes i s u) (hc : ∀ nnn, i ≠ .callAddr nnn) (hr : i ≠ .ret) :
    u.stack = s.stack ∧ u.sp = s.sp := by
  induction hw with
  | stack _ _ _ h =>
    obtain h | ⟨nnn, h⟩ := h
    · exact absurd h hr
    · exact absurd h (hc nnn)
  | start => exact ⟨rfl, rfl⟩
  | _ => assumption

theorem delay_eq (hw : Writes i s u) (hi : ∀ x, i ≠ .ldDtVx x) : u.dt = s.dt := by
  induction hw with
  | delay _ _ h => exact absurd h (not_exists.2 hi)
  | start => rfl
  | _ => assumption

theorem sound_eq (hw : Writes i s u) (hi : ∀ x, i ≠ .ldStVx x) : u.st = s.st := by
  induction hw with
  | sound _ _ h => exact absurd h (not_exists.2 hi)
  | start => rfl
  | _ => assumption

theorem display_eq (hw : Writes i s u) (hc : i ≠ .cls) (hd : ∀ x y n, i ≠ .drwVxVyNibble x y n) :
    u.fb = s.fb ∧ u.dirty = s.dirty := by
  induction hw with
  | display _ _ h =>
    obtain h | ⟨x, y, n, h⟩ := h
    · exact absurd h hc
    · exact absurd h (hd x y n)
  | start => exact ⟨rfl, rfl⟩
  | _ => assumption

theorem running_eq (hw : Writes i s u) (hi : ∀ nnn, i ≠ .halt nnn) : u.running = s.running := by
  induction hw with
  | halt _ h => exact absurd h (not_exists.2 hi)
  | start => rfl
  | _ => assumption

/-- PC, the keys, the fault record and the parameters are in no instruction's writes. -/
theorem session_eq (hw : Writes i s u) : u.pc = s.pc ∧ u.keys = s.keys ∧ u.fault = s.fault ∧ u.params = s.params := by
  induction hw with
  | start => exact ⟨rfl, rfl, rfl, rfl⟩
  | _ => assumption

/-- Stores of a list of bytes, each at an address the instruction stores to. -/
theorem setBytes (hw : Writes i s u) {a : Nat} {bs : List Byte}
    (h : ∀ k < bs.length, valid (a + k) = true ∧ StoresTo i s (a + k)) : Writes i s (u.setBytes a bs) := by
  induction bs generalizing u a with
  | nil => exact hw
  | cons b bs ih =>
    obtain ⟨hv, hs⟩ := h 0 (by simp)
    refine ih (hw.byte a b hv hs) (fun k hk => ?_)
    rw [Nat.add_right_comm, Nat.add_assoc]
    exact h (k + 1) (by simpa using hk)

/-- Loads of a list of bytes into V[k], V[k + 1], ..., each a destination of the instruction. -/
theorem loadRegs (hw : Writes i s u) {k : Nat} {bs : List Byte}
    (h : ∀ j < bs.length, writesReg (Fin.ofNat 16 (k + j)) i = true) : Writes i s (u.loadRegs k bs) := by
  induction bs generalizing u k with
  | nil => exact hw
  | cons b bs ih =>
    refine ih (hw.reg _ b (h 0 (by simp))) (fun j hj => ?_)
    rw [Nat.add_right_comm, Nat.add_assoc]
    exact h (j + 1) (by simpa using hj)

/-- The optional increment of I writes I only if the parameter lets the instruction do so. -/
theorem incrementI (hw : Writes i s u) (n : Nat) (h : s.params.loadStoreIncrementsI = true → writesI s.params i = true) :
    Writes i s (u.incrementI n) := by
  obtain ⟨-, -, -, hp⟩ := hw.session_eq
  unfold State.incrementI
  split
  · next hinc => exact hw.index _ (h (hp ▸ hinc))
  · exact hw

end Writes

/-! ## How PC moves at the end -/

/-- `t` is `u` with PC moved as instruction `i`, begun in `s`, may move it (R23, R24, R117). -/
inductive Ends (i : Instr) (s u : State) : State → Prop
  | done : Ends i s u (u.advance 2)
  | skip (c : Bool) (h : isSkip i = true) : Ends i s u (u.advance (if c then 4 else 2))
  | wait (h : ∃ x, i = .ldVxK x) (hk : ∀ k, s.key k = false) : Ends i s u (u.advance 0)
  | jump (w : Word) (h : transfersControl i = true) : Ends i s u (u.setPc w)

theorem Ends.eq_setPc {i : Instr} {s u t : State} (h : Ends i s u t) : ∃ w, t = u.setPc w := by
  cases h with
  | done => exact ⟨_, rfl⟩
  | skip => exact ⟨_, rfl⟩
  | wait => exact ⟨_, rfl⟩
  | jump w => exact ⟨w, rfl⟩

/-! ## Every instruction -/

/-- `t` is what instruction `i` may leave of `s`: its writes, then the move of PC. -/
def Completes (i : Instr) (s t : State) : Prop := ∃ u, Writes i s u ∧ Ends i s u t

section
variable {i : Instr} {s u t : State}

theorem Completes.of_done (hw : Writes i s u) (h : u.done = .next t) : Completes i s t := by
  obtain rfl := Host.Outcome.next.inj h
  exact ⟨u, hw, .done⟩

theorem Completes.of_skipIf {c : Bool} (hi : isSkip i = true) (h : s.skipIf c = .next t) : Completes i s t := by
  obtain rfl := Host.Outcome.next.inj h
  exact ⟨s, .start, .skip c hi⟩

theorem Completes.of_jump {w : Word} (hi : transfersControl i = true) (h : s.jump w = .next t) : Completes i s t := by
  obtain rfl := Host.Outcome.next.inj h
  exact ⟨s, .start, .jump w hi⟩

theorem Completes.of_setReg {x : RegIdx} {b : Byte} (h : (s.setReg x b).done = .next t)
    (hx : writesReg x i = true := by simp [writesReg]) : Completes i s t :=
  .of_done (.reg .start x b hx) h

/-- VF and then the destination, as SUB, SUBN, SHR and SHL write them. -/
theorem Completes.of_setFlag_setReg {x : RegIdx} {c : Bool} {b : Byte} (h : ((s.setFlag c).setReg x b).done = .next t)
    (hF : writesReg vF i = true := by simp [writesReg]) (hx : writesReg x i = true := by simp [writesReg]) :
    Completes i s t :=
  .of_done (.reg (.reg .start vF (flagByte c) hF) x b hx) h

theorem completes_of_exec (h : exec i s = .next t) : Completes i s t := by
  cases i with
  | halt nnn => exact .of_done (.halt .start ⟨nnn, rfl⟩) h
  | cls => exact .of_done (.display .start _ (.inl rfl)) h
  | ret =>
    obtain ⟨hsp, rfl⟩ := execRet_next h
    exact ⟨_, .stack .start s.stack _ (.inl rfl), .jump _ rfl⟩
  | callAddr nnn =>
    obtain ⟨hsp, rfl⟩ := execCallAddr_next h
    exact ⟨_, .stack .start _ _ (.inr ⟨nnn, rfl⟩), .jump _ rfl⟩
  | jpAddr | jpV0Addr => exact .of_jump rfl h
  | seVxByte | sneVxByte | seVxVy | sneVxVy => exact .of_skipIf rfl h
  | skpVx x =>
    obtain ⟨k, -, rfl⟩ := execSkpVx_next h
    exact ⟨s, .start, .skip _ rfl⟩
  | sknpVx x =>
    obtain ⟨k, -, rfl⟩ := execSknpVx_next h
    exact ⟨s, .start, .skip _ rfl⟩
  | ldVxByte | addVxByte | ldVxVy | orVxVy | andVxVy | xorVxVy | ldVxDt => exact .of_setReg h
  | ldVxK x =>
    obtain ⟨k, -, rfl⟩ | ⟨hk, rfl⟩ := execLdVxK_next h
    · exact ⟨_, .reg .start x _ (by simp [writesReg]), .done⟩
    · exact ⟨s, .start, .wait ⟨x, rfl⟩ (State.lowestKey_eq_none_iff.1 hk)⟩
  | rndVxByte x nn => exact .of_done (.reg (.draw .start ⟨x, nn, rfl⟩) x _ (by simp [writesReg])) h
  | addVxVy x y => exact .of_done (.reg (.reg .start x _ (by simp [writesReg])) vF _ (by simp [writesReg])) h
  | subVxVy | shrVxVy | subnVxVy | shlVxVy => exact .of_setFlag_setReg h
  | drwVxVyNibble x y n =>
    obtain ⟨rows, d, -, -, rfl⟩ := execDrwVxVyNibble_next h
    exact ⟨_, .reg (.display .start d.1 (.inr ⟨x, y, n, rfl⟩)) vF (flagByte d.2) (by simp [writesReg]), .done⟩
  | ldDtVx x => exact .of_done (.delay .start _ ⟨x, rfl⟩) h
  | ldStVx x => exact .of_done (.sound .start _ ⟨x, rfl⟩) h
  | ldIAddr | addIVx => exact .of_done (.index .start _ rfl) h
  | ldFVx x =>
    obtain ⟨d, -, rfl⟩ := execLdFVx_next h
    exact ⟨_, .index .start _ rfl, .done⟩
  | ldBVx x =>
    obtain ⟨hv, rfl⟩ := execLdBVx_next h
    exact ⟨_, Writes.start.setBytes (bs := decimalDigits (s.reg x)) fun k hk =>
      ⟨hv k hk, Nat.le_add_right _ k, Nat.add_lt_add_left hk _⟩, .done⟩
  | ldMemIVx x =>
    obtain ⟨hv, rfl⟩ := execLdMemIVx_next h
    refine ⟨_, (Writes.start.setBytes fun k hk => ?_).incrementI _ id, .done⟩
    rw [State.regsUpTo_length] at hk
    exact ⟨hv k hk, Nat.le_add_right _ k, Nat.add_lt_add_left hk _⟩
  | ldVxMemI x =>
    obtain ⟨bs, hbs, rfl⟩ := execLdVxMemI_next h
    obtain ⟨hlen, -⟩ := State.readBytes_ok_iff.1 hbs
    refine ⟨_, (Writes.start.loadRegs fun j hj => ?_).incrementI _ id, .done⟩
    simp only [writesReg, Fin.le_def, Fin.val_ofNat, decide_eq_true_eq]
    omega

/-- Whatever an instruction does besides its writes is to PC. -/
theorem writes_of_exec (h : exec i s = .next t) : ∃ u w, Writes i s u ∧ t = u.setPc w := by
  obtain ⟨u, hw, he⟩ := completes_of_exec h
  obtain ⟨w, rfl⟩ := he.eq_setPc
  exact ⟨u, w, hw, rfl⟩

end

/-! ## PC -/

/-- Settles O11: a fetch that succeeds read a byte of the program region at PC and at PC + 1. -/
theorem instructionsRunOnlyFromTheProgramRegion : Obligations.InstructionsRunOnlyFromTheProgramRegion := by
  intro s t h
  obtain ⟨-, i, hfetch, -⟩ := step_next h
  obtain ⟨hi, lo, hfst, hsnd, -⟩ := State.fetchInstr_ok_iff.1 hfetch
  obtain ⟨hvalid, -⟩ := State.fetchByte_ok_iff.1 hfst
  obtain ⟨hvalid', -⟩ := State.fetchByte_ok_iff.1 hsnd
  rw [valid_iff] at hvalid hvalid'
  omega

/-- Settles O18: by how the instruction ends, its writes having left PC alone. -/
theorem pcAdvancesByTheRule : Obligations.PcAdvancesByTheRule := by
  intro i s t h htr
  obtain ⟨u, hw, he⟩ := completes_of_exec h
  obtain ⟨hpc, -⟩ := hw.session_eq
  cases he with
  | done => exact .inl (by simp [hpc])
  | skip c hi =>
    cases c with
    | false => exact .inl (by simp [hpc])
    | true => exact .inr (.inl ⟨hi, by simp [hpc]⟩)
  | wait hx hk => exact .inr (.inr ⟨hx, hk, by simp [hpc]⟩)
  | jump w hj => simp [hj] at htr

/-! ## Frames -/

/-- Settles O44: no write is to a register that `writesReg` does not list. -/
theorem onlyDestinationsAndFlagsAreWritten : Obligations.OnlyDestinationsAndFlagsAreWritten := by
  intro i s t r h hi
  obtain ⟨u, w, hw, rfl⟩ := writes_of_exec h
  exact hw.reg_eq hi

/-- Settles O45: no write is to I unless `writesI` says so. -/
theorem onlyIndexInstructionsWriteI : Obligations.OnlyIndexInstructionsWriteI := by
  intro i s t h hi
  obtain ⟨u, w, hw, rfl⟩ := writes_of_exec h
  exact hw.index_eq hi

/-- Settles O46: no write but that of CALL and RET is to the stack or SP. -/
theorem onlyCallAndRetTouchTheStack : Obligations.OnlyCallAndRetTouchTheStack := by
  intro i s t h hc hr
  obtain ⟨u, w, hw, rfl⟩ := writes_of_exec h
  exact hw.stack_eq hc hr

/-- Settles O47: each timer is in the writes of its one instruction only. -/
theorem onlyTimerInstructionsWriteTimers : Obligations.OnlyTimerInstructionsWriteTimers := by
  intro i s t h
  obtain ⟨u, w, hw, rfl⟩ := writes_of_exec h
  exact ⟨hw.delay_eq, hw.sound_eq⟩

theorem dirty_of_execCls {s t : State} (h : exec .cls s = .next t) : t.dirty = true := by
  obtain rfl := Host.Outcome.next.inj h
  rfl

theorem dirty_of_execDrw {x y : RegIdx} {n : Nibble} {s t : State} (h : exec (.drwVxVyNibble x y n) s = .next t) :
    t.dirty = true := by
  obtain ⟨rows, d, -, -, rfl⟩ := execDrwVxVyNibble_next h
  rfl

/-- Settles O48: CLS and DRW end with `setFb`, which sets `dirty`; no other instruction writes the display. -/
theorem onlyClsAndDrwTouchTheDisplay : Obligations.OnlyClsAndDrwTouchTheDisplay := by
  intro i s t h
  constructor
  · rintro (rfl | ⟨x, y, n, rfl⟩)
    · exact dirty_of_execCls h
    · exact dirty_of_execDrw h
  · obtain ⟨u, w, hw, rfl⟩ := writes_of_exec h
    exact hw.display_eq

theorem running_of_execHalt {nnn : Addr12} {s t : State} (h : exec (.halt nnn) s = .next t) : t.running = false := by
  obtain rfl := Host.Outcome.next.inj h
  rfl

/-- Settles O49: the keys, the fault record and the parameters are in no instruction's writes, `running` in HALT's alone. -/
theorem keysAndSessionStateAreKept : Obligations.KeysAndSessionStateAreKept := by
  intro i s t h
  have hhalt : ∀ nnn, i = .halt nnn → t.running = false := by
    rintro nnn rfl
    exact running_of_execHalt h
  obtain ⟨u, w, hw, rfl⟩ := writes_of_exec h
  obtain ⟨-, hkeys, hfault, hparams⟩ := hw.session_eq
  exact ⟨hkeys, hfault, hparams, hw.running_eq, hhalt⟩

end Sys2Proof.Machine

/-! SUPPORT. No instruction reads ST (10_state R30): every operation of the model commutes with a write of ST. -/
namespace Sys2Proof.Machine

/-- A result with `g` applied to the next state, if there is one. -/
def mapNext (g : State → State) : Result → Result
  | .next t => .next (g t)
  | .fault f => .fault f
  | .refused r => .refused r

/-! ## Raising -/

/-- Raising commutes with `g` if what follows does. -/
theorem orRaise_mapNext {α : Type} {g : State → State} {r : Except Fault α} {k k' : α → Result}
    (hk : ∀ a, k' a = mapNext g (k a)) : orRaise r k' = mapNext g (orRaise r k) := by
  cases r with
  | ok a => exact hk a
  | error f => rfl

/-- The same for an operation that answers a state, with what `g` does to its answer. -/
theorem orRaise_map_mapNext {α : Type} {g : State → State} {m : α → α} {r r' : Except Fault α} {k k' : α → Result}
    (hr : r' = r.map m) (hk : ∀ a, k' (m a) = mapNext g (k a)) : orRaise r' k' = mapNext g (orRaise r k) := by
  subst hr
  cases r with
  | ok a => exact hk a
  | error f => rfl

/-! ## The shared operations -/

section
variable (s : State) (b : Byte)

theorem State.readBytes_setSt (a n : Nat) : (s.setSt b).readBytes a n = s.readBytes a n := by
  induction n generalizing a with
  | zero => rfl
  | succ n ih =>
    have hm : (s.setSt b).memRead a = s.memRead a := rfl
    simp only [State.readBytes, hm, ih]

theorem State.writeBytes_setSt (a : Nat) (bs : List Byte) :
    (s.setSt b).writeBytes a bs = (s.writeBytes a bs).map (·.setSt b) := by
  induction bs generalizing s a with
  | nil => rfl
  | cons c bs ih =>
    have hm : (s.setSt b).memWrite a c = (s.memWrite a c).map (·.setSt b) := by
      unfold State.memWrite
      split <;> rfl
    simp only [State.writeBytes, hm]
    cases s.memWrite a c with
    | error f => rfl
    | ok u => exact ih u (a + 1)

theorem State.push_setSt (w : Word) : (s.setSt b).push w = (s.push w).map (·.setSt b) := by
  cases h : s.push w with
  | ok r =>
    obtain ⟨hsp, rfl⟩ := State.push_ok_iff.1 h
    exact State.push_ok_iff.2 ⟨hsp, rfl⟩
  | error f =>
    have he := State.push_error_iff.1 h
    exact State.push_error_iff.2 he

theorem State.pop_setSt : (s.setSt b).pop = s.pop.map fun r => (r.1, r.2.setSt b) := by
  cases h : s.pop with
  | ok r =>
    obtain ⟨hsp, rfl⟩ := State.pop_ok_iff.1 h
    exact State.pop_ok_iff.2 ⟨hsp, rfl⟩
  | error f =>
    have he := State.pop_error_iff.1 h
    exact State.pop_error_iff.2 he

theorem State.loadRegs_setSt (k : Nat) (bs : List Byte) : (s.setSt b).loadRegs k bs = (s.loadRegs k bs).setSt b := by
  induction bs generalizing s k with
  | nil => rfl
  | cons c bs ih => exact ih (s.setReg (Fin.ofNat 16 k) c) (k + 1)

theorem State.incrementI_setSt (n : Nat) : (s.setSt b).incrementI n = (s.incrementI n).setSt b := by
  simp only [State.incrementI_eq]
  rfl

end

/-! ## Every instruction -/

/-- Every instruction but LD ST, Vx takes ST along unread and unchanged. -/
theorem exec_setSt {i : Instr} (s : State) (b : Byte) (hi : ∀ x, i ≠ .ldStVx x) :
    exec i (s.setSt b) = mapNext (·.setSt b) (exec i s) := by
  cases i with
  | ldStVx x => exact absurd rfl (hi x)
  | ret => exact orRaise_map_mapNext (s.pop_setSt b) fun _ => rfl
  | callAddr nnn => exact orRaise_map_mapNext (s.push_setSt b _) fun _ => rfl
  | skpVx x => exact orRaise_mapNext (r := s.digitOf x) fun _ => rfl
  | sknpVx x => exact orRaise_mapNext (r := s.digitOf x) fun _ => rfl
  | ldFVx x => exact orRaise_mapNext (r := s.digitOf x) fun _ => rfl
  | ldVxK x =>
    have hkey : (s.setSt b).lowestKey = s.lowestKey := rfl
    simp only [exec, execLdVxK, hkey]
    cases s.lowestKey <;> rfl
  | drwVxVyNibble x y n =>
    simp only [exec, execDrwVxVyNibble, State.indexAddr_setSt, State.readBytes_setSt]
    exact orRaise_mapNext fun _ => rfl
  | ldBVx x => exact orRaise_map_mapNext (s.writeBytes_setSt b _ _) fun _ => rfl
  | ldMemIVx x =>
    refine orRaise_map_mapNext (s.writeBytes_setSt b _ _) fun u => ?_
    rw [State.incrementI_setSt]
    rfl
  | ldVxMemI x =>
    simp only [exec, execLdVxMemI, State.indexAddr_setSt, State.readBytes_setSt]
    refine orRaise_mapNext fun bs => ?_
    rw [State.loadRegs_setSt, State.incrementI_setSt]
    rfl
  | _ => rfl

/-- LD ST, Vx overwrites ST, so it ends alike whatever ST held. -/
theorem exec_ldStVx_setSt (x : RegIdx) (s : State) (b : Byte) : exec (.ldStVx x) (s.setSt b) = exec (.ldStVx x) s := rfl

/-- Settles O51: LD ST, Vx overwrites ST, and every other instruction commutes with writing it. -/
theorem noInstructionReadsTheSoundTimer : Obligations.NoInstructionReadsTheSoundTimer := by
  intro i s b
  by_cases hi : ∃ x, i = .ldStVx x
  · obtain ⟨x, rfl⟩ := hi
    rw [exec_ldStVx_setSt]
    exact ⟨fun t h => ⟨t, h, rfl⟩, fun f h => h⟩
  · rw [exec_setSt s b (not_exists.1 hi)]
    constructor
    · intro t h
      exact ⟨t.setSt b, by rw [h]; rfl, rfl⟩
    · intro f h
      rw [h]
      rfl

end Sys2Proof.Machine

/-! SUPPORT. The AddressSpace over a whole run (20_memory R41 to R59): its canonical form is kept, nothing below the
program region changes, a stored byte reads back, and what construction puts where. -/
namespace Sys2Proof.Machine

/-! ## The canonical form -/

namespace Writes
variable {i : Instr} {s u : State}

/-- The only write to memory is of one byte in the program region (R50), which keeps the form. -/
theorem memoryCanonical (hw : Writes i s u) (hs : s.MemoryCanonical) : u.MemoryCanonical := by
  induction hw with
  | byte _ a b hv _ ih => exact Memory.wf_set b hv ih
  | start => exact hs
  | _ => assumption

/-- A byte outside the program region, or where the instruction does not store, is not written. -/
theorem byteAt_eq (hw : Writes i s u) {c : Nat} (hc : ¬ (valid c = true ∧ StoresTo i s c)) : u.byteAt c = s.byteAt c := by
  induction hw with
  | byte _ a b hv hst ih =>
    have hne : c ≠ a := by
      rintro rfl
      exact hc ⟨hv, hst⟩
    rw [State.byteAt_setByte, if_neg hne, ih]
  | start => rfl
  | _ => assumption

end Writes

/-- Settles O53: no write of the instruction breaks the form, and PC is no part of memory. -/
theorem stepKeepsMemoryCanonical : Obligations.StepKeepsMemoryCanonical := by
  intro s t hs h
  obtain ⟨-, i, -, hexec⟩ := step_next h
  obtain ⟨u, w, hw, rfl⟩ := writes_of_exec hexec
  exact hw.memoryCanonical hs

theorem State.memoryCanonical_resetWith (p : Params) (v : Vector Byte 16) (i : Word) :
    (State.resetWith p v i).MemoryCanonical := Memory.wf_nil p

/-- Settles O54: at reset no byte is listed. -/
theorem resetMemoryIsCanonical : Obligations.ResetMemoryIsCanonical :=
  ⟨Memory.wf_nil defaultParams, State.memoryCanonical_resetWith⟩

/-! ## Reading back -/

theorem readable_of_valid {a : Nat} (h : valid a = true) : readable a = true :=
  (readable_iff a).2 (.inr ((valid_iff a).1 h))

/-- Settles O36: the one byte a write stores is in the program region, where it is read back. -/
theorem memoryReadsBackWhatWasWritten : Obligations.MemoryReadsBackWhatWasWritten := by
  intro s a v
  refine ⟨fun ha => ?_, fun ha => ?_, fun ha => ?_⟩
  · have hv : valid a = true := (valid_iff a).2 ha
    refine ⟨s.setByte a v, State.memWrite_ok_iff.2 ⟨hv, rfl⟩, State.memRead_ok_iff.2 ⟨readable_of_valid hv, ?_⟩, ?_⟩
    · rw [State.byteAt_setByte, if_pos rfl]
    · intro c hc
      rw [State.byteAt_setByte, if_neg hc]
  · have hv : valid a = false := by rwa [← Bool.not_eq_true, valid_iff]
    exact State.memWrite_error_iff.2 ⟨hv, rfl⟩
  · have hr : readable a = false := by
      rw [← Bool.not_eq_true, readable_iff]
      omega
    exact State.memRead_error_iff.2 (.inl ⟨hr, rfl⟩)

/-- The bytes an address holds depend on the listed bytes and the parameters only. -/
theorem State.byteAt_congr {s t : State} (hm : s.mem = t.mem) (hp : s.params = t.params) (a : Nat) :
    s.byteAt a = t.byteAt a := by
  unfold State.byteAt
  rw [hm, hp]

/-- After LD [I], Vx the bytes at the stored addresses are V0 to V[X], which a read there answers. -/
theorem readBytes_of_execLdMemIVx {x : RegIdx} {s t : State} (h : exec (.ldMemIVx x) s = .next t) :
    t.readBytes s.indexAddr (x.val + 1) = .ok (s.regsUpTo x) := by
  obtain ⟨hv, rfl⟩ := execLdMemIVx_next h
  refine State.readBytes_ok_iff.2 ⟨s.regsUpTo_length x, fun k hk => ?_⟩
  refine State.memRead_ok_iff.2 ⟨readable_of_valid (hv k hk), ?_⟩
  have hin : s.indexAddr ≤ s.indexAddr + k ∧ s.indexAddr + k < s.indexAddr + (s.regsUpTo x).length := by
    rw [State.regsUpTo_length]
    omega
  rw [State.byteAt_advance, State.incrementI_eq, State.byteAt_setI, State.byteAt_setBytes, if_pos hin,
    Nat.add_sub_cancel_left]

/-- Reads that succeed answer alike in every state with the same memory. -/
theorem State.readBytes_ok_congr {s t : State} {a n : Nat} {bs : List Byte} (hm : s.mem = t.mem)
    (hp : s.params = t.params) (h : t.readBytes a n = .ok bs) : s.readBytes a n = .ok bs := by
  obtain ⟨hlen, hread⟩ := State.readBytes_ok_iff.1 h
  refine State.readBytes_ok_iff.2 ⟨hlen, fun k hk => ?_⟩
  obtain ⟨hr, hb⟩ := State.memRead_ok_iff.1 (hread k hk)
  exact State.memRead_ok_iff.2 ⟨hr, (State.byteAt_congr hm hp _).trans hb⟩

/-- LD Vx, [I] puts the bytes it reads into V0 to V[X]. -/
theorem execLdVxMemI_of_readBytes {x : RegIdx} {s : State} {bs : List Byte}
    (h : s.readBytes s.indexAddr (x.val + 1) = .ok bs) :
    ∃ t, exec (.ldVxMemI x) s = .next t ∧ ∀ r : RegIdx, r ≤ x → t.reg r = bs.getD r.val 0 := by
  obtain ⟨hlen, -⟩ := State.readBytes_ok_iff.1 h
  refine ⟨((s.loadRegs 0 bs).incrementI (x.val + 1)).advance 2, ?_, fun r hr => ?_⟩
  · simp only [exec, execLdVxMemI, h, orRaise_ok, State.done_eq]
  · have hin : 0 ≤ r.val ∧ r.val < 0 + bs.length := by
      rw [Fin.le_def] at hr
      omega
    rw [State.reg_advance, State.incrementI_eq, State.reg_setI, State.reg_loadRegs _ _ _ (by omega), if_pos hin,
      Nat.sub_zero]

/-- Settles O33: the load reads V0 to V[X] where the store put them. -/
theorem blockLoadUndoesBlockStore : Obligations.BlockLoadUndoesBlockStore := by
  intro x s t u h hmem hparams hi
  have hread : u.readBytes u.indexAddr (x.val + 1) = .ok (s.regsUpTo x) := by
    have haddr : u.indexAddr = s.indexAddr := congrArg BitVec.toNat hi
    rw [haddr]
    exact State.readBytes_ok_congr hmem hparams (readBytes_of_execLdMemIVx h)
  obtain ⟨w, hw, hreg⟩ := execLdVxMemI_of_readBytes hread
  refine ⟨w, hw, fun r hr => ?_⟩
  rw [hreg r hr, State.regsUpTo_getD s x r hr]

/-! ## Construction -/

theorem Memory.unlisted_font (p : Params) {a : Nat} (h : a < 80) : Memory.unlisted p a = some p.fontBytes[a] := by
  rw [Memory.unlisted, dif_pos h]

theorem Memory.unlisted_program (p : Params) {a : Nat} (h : valid a = true) : Memory.unlisted p a = p.unloadedFill := by
  rw [valid_iff] at h
  rw [Memory.unlisted, dif_neg (by omega), if_pos ((valid_iff a).2 h)]

section
variable {p : Params} {v : Vector Byte 16} {i : Word} {img : List Byte} {t : State}

theorem construct_next_iff : construct p v i img = .next t ↔
    img.length ≤ 0xE00 ∧ t = (State.resetWith p v i).setBytes 0x200 img := by
  unfold construct
  split
  · next h => simp [h, eq_comm]
  · next h => simp [h]

theorem construct_refused (h : 0xE00 < img.length) : construct p v i img = .refused (.imageTooLong img.length) :=
  if_neg (Nat.not_le.2 h)

/-- Construction differs from reset without an image in memory only. -/
theorem construct_next_eq (h : construct p v i img = .next t) : t = { State.resetWith p v i with mem := t.mem } := by
  obtain ⟨-, rfl⟩ := construct_next_iff.1 h
  exact State.setBytes_eq _ _ _

theorem byteAt_of_construct (h : construct p v i img = .next t) (c : Nat) :
    t.byteAt c = if 0x200 ≤ c ∧ c < 0x200 + img.length then some (img.getD (c - 0x200) 0) else Memory.unlisted p c := by
  obtain ⟨-, rfl⟩ := construct_next_iff.1 h
  exact State.byteAt_setBytes _ _ _ _

/-- The image lies above the font (R44). -/
theorem byteAt_font_of_construct (h : construct p v i img = .next t) {a : Nat} (ha : a < 80) :
    t.byteAt a = some p.fontBytes[a] := by
  rw [byteAt_of_construct h, if_neg (by omega), Memory.unlisted_font p ha]

theorem memoryCanonical_of_construct (h : construct p v i img = .next t) : t.MemoryCanonical := by
  have hparams : t.params = p := by rw [construct_next_eq h]; rfl
  obtain ⟨hlen, rfl⟩ := construct_next_iff.1 h
  unfold State.MemoryCanonical
  rw [hparams]
  refine State.wf_setBytes (s := State.resetWith p v i) (fun k hk => ?_) (State.memoryCanonical_resetWith p v i)
  rw [valid_iff]
  omega

end

/-- Settles O57: the image lies over what unlisted addresses hold, and the other fields are those of reset. -/
theorem constructionLoadsImageAndResets : Obligations.ConstructionLoadsImageAndResets := by
  intro p v i img
  refine ⟨fun hlen => ?_, construct_refused⟩
  obtain ⟨t, ht⟩ : ∃ t, construct p v i img = .next t := ⟨_, construct_next_iff.2 ⟨hlen, rfl⟩⟩
  have himage : ∀ k < img.length, t.byteAt (0x200 + k) = some (img.getD k 0) := by
    intro k hk
    rw [byteAt_of_construct ht, if_pos (by omega), Nat.add_sub_cancel_left]
  have hfill : ∀ a, 0x200 + img.length ≤ a → a ≤ 0xFFF → t.byteAt a = p.unloadedFill := by
    intro a hlo hhi
    rw [byteAt_of_construct ht, if_neg (by omega), Memory.unlisted_program p ((valid_iff a).2 (by omega))]
  refine ⟨t, ht, himage, fun a => byteAt_font_of_construct ht, hfill, memoryCanonical_of_construct ht, ?_⟩
  rw [construct_next_eq ht]
  exact ⟨rfl, rfl, rfl, rfl, rfl, rfl, rfl, rfl, rfl, rfl, fun k => Vector.getElem_replicate k.isLt,
    Framebuffer.pixel_blank⟩

/-! ## Below the program region -/

theorem valid_eq_false_of_lt {a : Nat} (h : a < 0x200) : valid a = false := by
  rw [← Bool.not_eq_true, valid_iff]
  omega

theorem step_byteAt_low {s t : State} {a : Nat} (ha : a < 0x200) (h : step s = .next t) : t.byteAt a = s.byteAt a := by
  obtain ⟨-, i, -, hexec⟩ := step_next h
  obtain ⟨u, w, hw, rfl⟩ := writes_of_exec hexec
  exact hw.byteAt_eq (by simp [valid_eq_false_of_lt ha])

/-- A host operation that leaves no fault is a step that completed, or touches neither memory nor the parameters. -/
theorem State.apply_next {s t : State} {op : HostOp} (h : s.apply op = .next t) (hf : t.fault = none) :
    step s = .next t ∨ (t.mem = s.mem ∧ t.params = s.params) := by
  cases op with
  | step =>
    simp only [State.apply, State.hostStep] at h
    split at h
    · next u hu =>
      left
      rw [hu, h]
    · next f _ =>
      obtain rfl := Host.Outcome.next.inj h
      simp [State.recordFault] at hf
    · simp at h
  | tick | acknowledgeDisplay =>
    obtain rfl := Host.Outcome.next.inj h
    exact .inr ⟨rfl, rfl⟩
  | keyEvent k pressed =>
    simp only [State.apply, State.keyEvent] at h
    split at h
    · obtain rfl := Host.Outcome.next.inj h
      exact .inr ⟨rfl, rfl⟩
    · simp at h

/-- Settles O37: construction puts the image above the font, and every later write is to the program region. -/
theorem fontIsNeverChanged : Obligations.FontIsNeverChanged := by
  refine ⟨fun p v i img t h a => byteAt_font_of_construct h, fun s a v ha => ?_, fun s t a => step_byteAt_low,
    fun s t op a ha h hf => ?_⟩
  · exact State.memWrite_error_iff.2 ⟨valid_eq_false_of_lt (by omega), rfl⟩
  · obtain hstep | ⟨hm, hp⟩ := State.apply_next h hf
    · exact step_byteAt_low ha hstep
    · exact State.byteAt_congr hm hp a

end Sys2Proof.Machine

/-! SUPPORT. The decoder and the encoder against each other (30_encoding R64 to R75): the fields as numbers, a word put
together again from its fields, and what each group answers. -/
namespace Sys2Proof
open Sys2Proof.Laws (fixedBits_eq)

/-! ## The fields as numbers (R66) -/

section
variable (w : Word)

theorem fieldGroup_toNat : (fieldGroup w).toNat = w.toNat / 4096 := by
  have hbits : w.toNat / 4096 % 16 = (fieldGroup w).toNat := fixedBits_eq w 12 4
  have hw := w.isLt
  omega

theorem fieldX_val : (fieldX w).val = w.toNat / 256 % 16 := (fixedBits_eq w 8 4).symm

theorem fieldY_val : (fieldY w).val = w.toNat / 16 % 16 := (fixedBits_eq w 4 4).symm

theorem fieldN_toNat : (fieldN w).toNat = w.toNat % 16 := by simp [fieldN]

theorem fieldNN_toNat : (fieldNN w).toNat = w.toNat % 256 := by simp [fieldNN]

theorem fieldNNN_toNat : (fieldNNN w).toNat = w.toNat % 4096 := by simp [fieldNNN]

end

/-- Settles O2: each field is an extraction, whose number is a quotient and a remainder. -/
theorem fieldsAreTheirBits : Obligations.FieldsAreTheirBits := fun w =>
  ⟨fieldX_val w, fieldY_val w, fieldN_toNat w, fieldNN_toNat w, fieldNNN_toNat w, fieldGroup_toNat w⟩

/-! ## A word from its fields -/

section
variable (w : Word)

theorem formA_fields : formA (fieldGroup w) (fieldNNN w) = w :=
  (BitVec.extractLsb'_append_extractLsb'_eq_extractLsb' (by rfl)).trans BitVec.extractLsb'_eq_self

theorem fieldX_append_fieldNN : BitVec.ofFin (w := 4) (fieldX w) ++ fieldNN w = fieldNNN w :=
  BitVec.extractLsb'_append_extractLsb'_eq_extractLsb' (by rfl)

theorem fieldY_append_fieldN : BitVec.ofFin (w := 4) (fieldY w) ++ fieldN w = fieldNN w :=
  BitVec.extractLsb'_append_extractLsb'_eq_extractLsb' (by rfl)

theorem formXNN_fields : formXNN (fieldGroup w) (fieldX w) (fieldNN w) = w := by
  rw [formXNN, fieldX_append_fieldNN]
  exact formA_fields w

theorem formXY_fields : formXY (fieldGroup w) (fieldX w) (fieldY w) (fieldN w) = w := by
  rw [formXY, fieldY_append_fieldN]
  exact formXNN_fields w

end

/-! The same with, in a field's place, the number the decoder found the field to be. -/

section
variable {w : Word} {g : Nibble}

theorem formA_of_group (hg : (fieldGroup w).toNat = g.toNat) : formA g (fieldNNN w) = w :=
  BitVec.eq_of_toNat_eq hg ▸ formA_fields w

theorem formXNN_of_group (hg : (fieldGroup w).toNat = g.toNat) : formXNN g (fieldX w) (fieldNN w) = w :=
  BitVec.eq_of_toNat_eq hg ▸ formXNN_fields w

theorem formXYN_of_group (hg : (fieldGroup w).toNat = g.toNat) : formXY g (fieldX w) (fieldY w) (fieldN w) = w :=
  BitVec.eq_of_toNat_eq hg ▸ formXY_fields w

theorem formXY_of_function {n : Nibble} (hg : (fieldGroup w).toNat = g.toNat) (hn : (fieldN w).toNat = n.toNat) :
    formXY g (fieldX w) (fieldY w) n = w :=
  BitVec.eq_of_toNat_eq hn ▸ formXYN_of_group hg

theorem formXff_of_function {ff : Byte} (hg : (fieldGroup w).toNat = g.toNat) (hff : (fieldNN w).toNat = ff.toNat) :
    formXff g (fieldX w) ff = w :=
  BitVec.eq_of_toNat_eq hff ▸ formXNN_of_group hg

end

theorem formA_inj {g : Nibble} {m n : Addr12} : formA g m = formA g n ↔ m = n := by
  refine ⟨fun h => ?_, congrArg (formA g)⟩
  simpa using congrArg fieldNNN h

/-! ## Group 0 (R70) -/

section
variable {hw : HaltWords} {w : Word} {i : Instr} {nnn : Addr12}

/-- HALT is well-formed exactly when its word is one that group 0 takes for HALT. -/
theorem wellFormed_halt_iff : (Instr.halt nnn).wellFormed hw = true ↔
    formA 0x0 nnn ≠ 0x00E0 ∧ formA 0x0 nnn ≠ 0x00EE ∧ hw.contains (formA 0x0 nnn) = true := by
  have hcls : formA 0x0 nnn = 0x00E0 ↔ nnn = 0x0E0 := formA_inj (n := 0x0E0)
  have hret : formA 0x0 nnn = 0x00EE ↔ nnn = 0x0EE := formA_inj (n := 0x0EE)
  simp only [Instr.wellFormed, Bool.and_eq_true, decide_eq_true_eq, ne_eq, hcls, hret, and_assoc]
  rfl

theorem decodeGroup0_halt (hcls : w ≠ 0x00E0) (hret : w ≠ 0x00EE) (hmem : hw.contains w = true) :
    decodeGroup0 hw w = .ok (.halt (fieldNNN w)) := by
  rw [decodeGroup0, if_neg hcls, if_neg hret, if_pos hmem]

theorem decodeGroup0_ok (h : decodeGroup0 hw w = .ok i) :
    (w = 0x00E0 ∧ i = .cls) ∨ (w = 0x00EE ∧ i = .ret) ∨
      (w ≠ 0x00E0 ∧ w ≠ 0x00EE ∧ hw.contains w = true ∧ i = .halt (fieldNNN w)) := by
  unfold decodeGroup0 at h
  split_ifs at h with hcls hret hmem
  · exact .inl ⟨hcls, (Except.ok.inj h).symm⟩
  · exact .inr (.inl ⟨hret, (Except.ok.inj h).symm⟩)
  · exact .inr (.inr ⟨hcls, hret, hmem, (Except.ok.inj h).symm⟩)

theorem decode_of_group0 (hg : (fieldGroup w).toNat = 0x0) : decode hw w = decodeGroup0 hw w := by
  simp only [decode, hg]

end

/-! ## Decoding an encoding -/

theorem decode_encode_halt {hw : HaltWords} {nnn : Addr12} (h : (Instr.halt nnn).wellFormed hw = true) :
    decode hw (encode (.halt nnn)) = .ok (.halt nnn) := by
  obtain ⟨hcls, hret, hmem⟩ := wellFormed_halt_iff.1 h
  rw [encode, decode_of_group0 (by rw [fieldGroup_formA]; rfl), decodeGroup0_halt hcls hret hmem, fieldNNN_formA]

/-- Settles O3: each form gives its fields back, and the group, then the function nibble or byte, selects the row. -/
theorem decodeInvertsEncode : Obligations.DecodeInvertsEncode := by
  intro hw i h
  cases i with
  | halt nnn => exact decode_encode_halt h
  | cls | ret => rfl
  | jpAddr | callAddr | ldIAddr | jpV0Addr => simp [encode, decode]
  | seVxByte | sneVxByte | ldVxByte | addVxByte | rndVxByte => simp [encode, decode]
  | drwVxVyNibble => simp [encode, decode]
  | seVxVy | sneVxVy => simp [encode, decode, decodeLowZero]
  | ldVxVy | orVxVy | andVxVy | xorVxVy | addVxVy | subVxVy | shrVxVy | subnVxVy | shlVxVy =>
    simp [encode, decode, decodeGroup8]
  | skpVx | sknpVx => simp [encode, decode, formXff, decodeGroupE]
  | ldVxDt | ldVxK | ldDtVx | ldStVx | addIVx | ldFVx | ldBVx | ldMemIVx | ldVxMemI =>
    simp [encode, decode, formXff, decodeGroupF]

/-! ## Encoding what a word decodes to -/

section
variable {hw : HaltWords} {w : Word} {i j : Instr}

/-- A row that answers `j` is inverted when `j` is a well-formed instruction of the word. -/
theorem encode_of_row (h : (Except.ok j : Except DecodeError Instr) = .ok i) (he : encode j = w)
    (hj : j.wellFormed hw = true := by rfl) : encode i = w ∧ i.wellFormed hw = true := by
  obtain rfl := Except.ok.inj h
  exact ⟨he, hj⟩

theorem encode_of_decodeGroup0 (hg : (fieldGroup w).toNat = 0x0) (h : decodeGroup0 hw w = .ok i) :
    encode i = w ∧ i.wellFormed hw = true := by
  obtain ⟨rfl, rfl⟩ | ⟨rfl, rfl⟩ | ⟨hcls, hret, hmem, rfl⟩ := decodeGroup0_ok h
  · exact ⟨rfl, rfl⟩
  · exact ⟨rfl, rfl⟩
  · have hform : formA 0x0 (fieldNNN w) = w := formA_of_group hg
    exact ⟨hform, wellFormed_halt_iff.2 (by rw [hform]; exact ⟨hcls, hret, hmem⟩)⟩

theorem encode_of_decodeLowZero (h : decodeLowZero w j = .ok i) (he : (fieldN w).toNat = 0x0 → encode j = w)
    (hj : j.wellFormed hw = true := by rfl) : encode i = w ∧ i.wellFormed hw = true := by
  unfold decodeLowZero at h
  split_ifs at h with hn
  exact encode_of_row h (he (congrArg BitVec.toNat hn)) hj

theorem encode_of_decodeGroup8 (hg : (fieldGroup w).toNat = 0x8) (h : decodeGroup8 w = .ok i) :
    encode i = w ∧ i.wellFormed hw = true := by
  unfold decodeGroup8 at h
  split at h
  case h_10 => cases h
  all_goals next hn => exact encode_of_row h (formXY_of_function hg hn)

theorem encode_of_decodeGroupE (hg : (fieldGroup w).toNat = 0xE) (h : decodeGroupE w = .ok i) :
    encode i = w ∧ i.wellFormed hw = true := by
  unfold decodeGroupE at h
  split at h
  case h_3 => cases h
  all_goals next hff => exact encode_of_row h (formXff_of_function hg hff)

theorem encode_of_decodeGroupF (hg : (fieldGroup w).toNat = 0xF) (h : decodeGroupF w = .ok i) :
    encode i = w ∧ i.wellFormed hw = true := by
  unfold decodeGroupF at h
  split at h
  case h_10 => cases h
  all_goals next hff => exact encode_of_row h (formXff_of_function hg hff)

end

/-- Settles O4, group by group in order: in each row the word is put together again from the fields the
instruction carries. -/
theorem encodeInvertsDecode : Obligations.EncodeInvertsDecode := by
  intro hw w i h
  unfold decode at h
  generalize hg : (fieldGroup w).toNat = g at h
  have hlt : g < 16 := hg ▸ (fieldGroup w).isLt
  interval_cases g
  · exact encode_of_decodeGroup0 hg h
  · exact encode_of_row h (formA_of_group hg)
  · exact encode_of_row h (formA_of_group hg)
  · exact encode_of_row h (formXNN_of_group hg)
  · exact encode_of_row h (formXNN_of_group hg)
  · exact encode_of_decodeLowZero h fun hn => formXY_of_function hg hn
  · exact encode_of_row h (formXNN_of_group hg)
  · exact encode_of_row h (formXNN_of_group hg)
  · exact encode_of_decodeGroup8 hg h
  · exact encode_of_decodeLowZero h fun hn => formXY_of_function hg hn
  · exact encode_of_row h (formA_of_group hg)
  · exact encode_of_row h (formA_of_group hg)
  · exact encode_of_row h (formXNN_of_group hg)
  · exact encode_of_row h (formXYN_of_group hg)
  · exact encode_of_decodeGroupE hg h
  · exact encode_of_decodeGroupF hg h

/-! ## The illegal words (R75) -/

section
variable {hw : HaltWords} {w : Word} {i : Instr}

theorem decodeGroup0_error_iff : decodeGroup0 hw w = .error (.decodeFailure w) ↔
    w.toNat ≠ 0x00E0 ∧ w.toNat ≠ 0x00EE ∧ hw.contains w = false := by
  have hcls : w = 0x00E0 ↔ w.toNat = 0x00E0 := BitVec.toNat_inj.symm
  have hret : w = 0x00EE ↔ w.toNat = 0x00EE := BitVec.toNat_inj.symm
  rw [decodeGroup0, ne_eq, ne_eq, ← hcls, ← hret]
  split_ifs with h0 h1 hmem
  · simp [h0]
  · simp [h1]
  · simp [hmem]
  · simpa [hmem] using And.intro h0 h1

theorem decodeLowZero_error_iff : decodeLowZero w i = .error (.decodeFailure w) ↔ w.toNat % 16 ≠ 0 := by
  have hzero : fieldN w = 0 ↔ w.toNat % 16 = 0 := by
    rw [← fieldN_toNat]
    exact BitVec.toNat_inj.symm
  unfold decodeLowZero
  split_ifs with hn
  · simp [hzero.1 hn]
  · simpa using mt hzero.2 hn

theorem decodeGroup8_error_iff : decodeGroup8 w = .error (.decodeFailure w) ↔
    w.toNat % 16 ∈ [0x8, 0x9, 0xA, 0xB, 0xC, 0xD, 0xF] := by
  unfold decodeGroup8
  rw [← fieldN_toNat]
  have hlt := (fieldN w).isLt
  generalize (fieldN w).toNat = n at hlt ⊢
  interval_cases n <;> simp

theorem decodeGroupE_error_iff : decodeGroupE w = .error (.decodeFailure w) ↔ w.toNat % 256 ∉ [0x9E, 0xA1] := by
  unfold decodeGroupE
  rw [← fieldNN_toNat]
  split
  case h_3 => simp_all
  all_goals next hff => simp [hff]

theorem decodeGroupF_error_iff : decodeGroupF w = .error (.decodeFailure w) ↔
    w.toNat % 256 ∉ [0x07, 0x0A, 0x15, 0x18, 0x1E, 0x29, 0x33, 0x55, 0x65] := by
  unfold decodeGroupF
  rw [← fieldNN_toNat]
  split
  case h_10 => simp_all
  all_goals next hff => simp [hff]

end

/-- Settles O5, group by group in order: the groups with unused words are those of the six lines, and
every word of any other group decodes. -/
theorem illegalWordsAreThoseOfR75 : Obligations.IllegalWordsAreThoseOfR75 := by
  intro hw w
  unfold decode
  rw [← fieldGroup_toNat]
  have hlt := (fieldGroup w).isLt
  generalize (fieldGroup w).toNat = g at hlt ⊢
  interval_cases g
  · simp [decodeGroup0_error_iff]
  · simp
  · simp
  · simp
  · simp
  · simp [decodeLowZero_error_iff]
  · simp
  · simp
  · simp [decodeGroup8_error_iff]
  · simp [decodeLowZero_error_iff]
  · simp
  · simp
  · simp
  · simp
  · simp [decodeGroupE_error_iff]
  · simp [decodeGroupF_error_iff]

/-! ## Words written out, and the word of two bytes (R53, R69) -/

/-- Settles O1: by evaluating the decoder on each word. -/
theorem opcodeMapWordsDecode : Obligations.OpcodeMapWordsDecode :=
  ⟨rfl, rfl, rfl, rfl, rfl, rfl, rfl, rfl, rfl, rfl, rfl, rfl⟩

theorem wordOfBytes_toNat (hi lo : Byte) : (wordOfBytes hi lo).toNat = 256 * hi.toNat + lo.toNat := by
  rw [wordOfBytes, BitVec.toNat_append, ← Nat.shiftLeft_add_eq_or_of_lt lo.isLt, Nat.shiftLeft_eq, Nat.mul_comm]

end Sys2Proof

/-! SUPPORT. How a step depends on PC (30_encoding R62): it runs the instruction at PC, and execution reads PC only to
push it, to move it and to put it into a fault record. -/
namespace Sys2Proof.Machine

/-! ## The step -/

/-- Settles O6: both bytes are fetched, and their word is the one that decodes. -/
theorem stepExecutesTheDecodedInstruction : Obligations.StepExecutesTheDecodedInstruction := by
  intro s hi lo w i henabled hlow hhigh hbhi hblo hw hdecode
  have hword : wordOfBytes hi lo = w := BitVec.eq_of_toNat_eq ((wordOfBytes_toNat hi lo).trans hw.symm)
  have hfetch : s.fetchInstr = .ok i := by
    have hvhi : valid s.pc.toNat = true := (valid_iff _).2 (by omega)
    have hvlo : valid (s.pc.toNat + 1) = true := (valid_iff _).2 (by omega)
    exact State.fetchInstr_ok_iff.2 ⟨hi, lo, State.fetchByte_ok_iff.2 ⟨hvhi, hbhi⟩,
      State.fetchByte_ok_iff.2 ⟨hvlo, hblo⟩, by rw [hword, hdecode]⟩
  rw [step_of_enabled henabled, hfetch, orRaise_ok]

/-! ## From another PC -/

/-- `r'` completes wherever `r` does, with the same state but for PC. -/
def CompletesAlike (r r' : Result) : Prop := ∀ t, r = .next t → ∃ t', r' = .next t' ∧ t'.setPc 0 = t.setPc 0

theorem CompletesAlike.next {t t' : State} (h : t'.setPc 0 = t.setPc 0) : CompletesAlike (.next t) (.next t') := by
  rintro _ ⟨⟩
  exact ⟨t', rfl, h⟩

/-- Raising keeps this when the operation's answers correspond by `m` and what follows completes alike. -/
theorem CompletesAlike.orRaise {α : Type} (m : α → α) {r r' : Except Fault α} {k k' : α → Result}
    (hr : ∀ a, r = .ok a → r' = .ok (m a)) (hk : ∀ a, CompletesAlike (k a) (k' (m a))) :
    CompletesAlike (orRaise r k) (orRaise r' k') := by
  intro t h
  obtain ⟨a, ha, hka⟩ := orRaise_next_iff.1 h
  rw [hr a ha]
  exact hk a t hka

section
variable (s : State) (p : Word)

theorem State.setBytes_setPc (a : Nat) (bs : List Byte) : (s.setPc p).setBytes a bs = (s.setBytes a bs).setPc p := by
  induction bs generalizing s a with
  | nil => rfl
  | cons b bs ih => exact ih (s.setByte a b) (a + 1)

theorem State.loadRegs_setPc (k : Nat) (bs : List Byte) : (s.setPc p).loadRegs k bs = (s.loadRegs k bs).setPc p := by
  induction bs generalizing s k with
  | nil => rfl
  | cons b bs ih => exact ih (s.setReg (Fin.ofNat 16 k) b) (k + 1)

theorem State.incrementI_setPc (n : Nat) : (s.setPc p).incrementI n = (s.incrementI n).setPc p := by
  simp only [State.incrementI_eq]
  rfl

variable {s}

theorem State.pop_setPc {r : Word × State} (h : s.pop = .ok r) : (s.setPc p).pop = .ok (r.1, r.2.setPc p) := by
  obtain ⟨hsp, rfl⟩ := State.pop_ok_iff.1 h
  exact State.pop_ok_iff.2 ⟨hsp, rfl⟩

theorem State.digitOf_setPc {x : RegIdx} {d : Fin 16} (h : s.digitOf x = .ok d) : (s.setPc p).digitOf x = .ok d := by
  have hd := State.digitOf_ok_iff.1 h
  exact State.digitOf_ok_iff.2 hd

theorem State.readBytes_setPc {a n : Nat} {bs : List Byte} (h : s.readBytes a n = .ok bs) :
    (s.setPc p).readBytes a n = .ok bs := State.readBytes_ok_congr (t := s) rfl rfl h

theorem State.writeBytes_setPc {a : Nat} {bs : List Byte} {u : State} (h : s.writeBytes a bs = .ok u) :
    (s.setPc p).writeBytes a bs = .ok (u.setPc p) := by
  obtain ⟨hv, rfl⟩ := State.writeBytes_ok_iff.1 h
  exact State.writeBytes_ok_iff.2 ⟨hv, (s.setBytes_setPc p a bs).symm⟩

end

/-- The operations take another PC along, and the final move of PC is what `CompletesAlike` leaves out. -/
theorem exec_setPc {i : Instr} (s : State) (p : Word) (hi : ∀ nnn, i ≠ .callAddr nnn) :
    CompletesAlike (exec i s) (exec i (s.setPc p)) := by
  cases i with
  | callAddr nnn => exact absurd rfl (hi nnn)
  | ret => exact .orRaise (fun r => (r.1, r.2.setPc p)) (fun _ => State.pop_setPc p) fun _ => .next rfl
  | skpVx | sknpVx | ldFVx => exact .orRaise id (fun _ => State.digitOf_setPc p) fun _ => .next rfl
  | drwVxVyNibble => exact .orRaise id (fun _ => State.readBytes_setPc p) fun _ => .next rfl
  | ldBVx => exact .orRaise (·.setPc p) (fun _ => State.writeBytes_setPc p) fun _ => .next rfl
  | ldMemIVx x =>
    refine .orRaise (·.setPc p) (fun _ => State.writeBytes_setPc p) fun u => ?_
    rw [State.incrementI_setPc]
    exact .next rfl
  | ldVxMemI x =>
    refine .orRaise id (fun _ => State.readBytes_setPc p) fun bs => ?_
    rw [id, State.loadRegs_setPc, State.incrementI_setPc]
    exact .next rfl
  | ldVxK x =>
    have hkey : (s.setPc p).lowestKey = s.lowestKey := rfl
    simp only [exec, execLdVxK, hkey]
    cases s.lowestKey with
    | none => exact .next rfl
    | some k => exact .next rfl
  | _ => exact .next rfl

/-- Settles O52: every arm but CALL's completes alike from another PC. -/
theorem onlyCallReadsThePc : Obligations.OnlyCallReadsThePc := fun _ s t p hi => exec_setPc s p hi t

end Sys2Proof.Machine

/-! SUPPORT. Control flow (40_control_flow): what HALT leaves, what CALL and RET do to the call stack, and where jumps
and the skips on values send PC. -/
namespace Sys2Proof.Machine

/-! ## HALT -/

theorem step_of_normalEnd {s : State} (h : s.NormalEnd) : step s = .refused .stepAfterHalt := by
  obtain ⟨hrun, hfault⟩ := h
  simp [step, State.stepRefused, hrun, hfault]

/-- Settles O12: PC still advances past a HALT, and if no fault is recorded the run is at its normal end. -/
theorem haltStopsTheMachine : Obligations.HaltStopsTheMachine := by
  intro nnn s
  refine ⟨s.halt.advance 2, rfl, rfl, rfl, fun hfault => ?_⟩
  have hend : (s.halt.advance 2).NormalEnd := ⟨rfl, hfault⟩
  exact ⟨hend, step_of_normalEnd hend⟩

/-! ## The operands of a jump -/

theorem zextAddr_toNat (nnn : Addr12) : (zextAddr nnn).toNat = nnn.toNat :=
  BitVec.toNat_setWidth_of_le (by decide)

theorem zextByte_toNat (b : Byte) : (zextByte b).toNat = b.toNat :=
  BitVec.toNat_setWidth_of_le (by decide)

/-! ## The call stack -/

section
variable {nnn : Addr12} {s t : State}

theorem exec_callAddr_completes (h : s.sp.val < 16) : ∃ t, exec (.callAddr nnn) s = .next t :=
  ⟨_, orRaise_next_iff.2 ⟨_, State.push_ok_iff.2 ⟨h, rfl⟩, rfl⟩⟩

theorem exec_callAddr_overflows (h : s.sp.val = 16) : exec (.callAddr nnn) s = .fault (.stackOverflow s.pc) :=
  orRaise_fault_iff.2 (.inl (State.push_error_iff.2 ⟨by omega, rfl⟩))

/-- A CALL that completes puts PC + 2 into the slot at SP and into no other. -/
theorem exec_callAddr_pushes (h : exec (.callAddr nnn) s = .next t) :
    t.pc = zextAddr nnn ∧ t.sp.val = s.sp.val + 1 ∧
      t.stack[s.sp.val]? = some (s.pc + 2) ∧ ∀ k, k ≠ s.sp.val → t.stack[k]? = s.stack[k]? := by
  obtain ⟨hsp, rfl⟩ := execCallAddr_next h
  exact ⟨rfl, rfl, Vector.getElem?_set_self hsp, fun k hk => Vector.getElem?_set_ne hsp hk.symm⟩

/-- RET jumps to the entry below SP. -/
theorem exec_ret_pops (h : s.sp.val ≠ 0) : ∃ t, exec .ret s = .next t ∧
    s.stack[s.sp.val - 1]? = some t.pc ∧ t.sp.val = s.sp.val - 1 ∧ t.stack = s.stack := by
  have hslot : s.sp.val - 1 < 16 := by omega
  exact ⟨_, orRaise_next_iff.2 ⟨_, State.pop_ok_iff.2 ⟨h, rfl⟩, rfl⟩,
    Vector.getElem?_eq_getElem hslot, rfl, rfl⟩

theorem exec_ret_underflows (h : s.sp.val = 0) : exec .ret s = .fault (.stackUnderflow s.pc) :=
  orRaise_fault_iff.2 (.inl (State.pop_error_iff.2 ⟨h, rfl⟩))

end

/-- Settles O13: there is room for the push, or there is not. -/
theorem callPushesAndJumps : Obligations.CallPushesAndJumps := by
  refine fun nnn s => ⟨fun hroom => ?_, exec_callAddr_overflows⟩
  obtain ⟨t, ht⟩ := exec_callAddr_completes hroom
  obtain ⟨hpc, hsp, hslot, hother⟩ := exec_callAddr_pushes ht
  exact ⟨t, ht, by rw [hpc, zextAddr_toNat], hsp, hslot, hother⟩

/-- Settles O14: there is an entry to pop, or there is not. -/
theorem retPopsIntoPc : Obligations.RetPopsIntoPc := fun _ => ⟨exec_ret_pops, exec_ret_underflows⟩

/-- Settles O15: the entry RET pops is in the slot the CALL wrote. -/
theorem callThenRetReturnsAfterTheCall : Obligations.CallThenRetReturnsAfterTheCall := by
  intro nnn s t u hcall hstack husp
  obtain ⟨-, hsp, hslot, -⟩ := exec_callAddr_pushes hcall
  have hdepth : u.sp.val = s.sp.val + 1 := by rw [husp, hsp]
  obtain ⟨w, hret, hpc, hwsp, -⟩ := exec_ret_pops (s := u) (by omega)
  have htop : u.sp.val - 1 = s.sp.val := by omega
  rw [htop, hstack, hslot] at hpc
  exact ⟨w, hret, (Option.some.inj hpc).symm, Fin.ext (hwsp.trans htop)⟩

/-! ## Jumps and skips -/

/-- Settles O16: NNN and V0 are too small for their sum to wrap at 16 bits. -/
theorem jumpsSetThePcUnmasked : Obligations.JumpsSetThePcUnmasked := by
  refine fun nnn s => ⟨⟨_, rfl, zextAddr_toNat nnn⟩, ⟨_, rfl, ?_⟩⟩
  have hsum : (zextAddr nnn).toNat + (zextByte (s.reg 0)).toNat < 2 ^ 16 := by
    rw [zextAddr_toNat, zextByte_toNat]
    omega
  rw [State.setPc_pc, BitVec.toNat_add_of_lt hsum, zextAddr_toNat, zextByte_toNat]

theorem State.skipIf_advances (s : State) (p : Prop) [Decidable p] :
    ∃ t, s.skipIf p = .next t ∧ t.pc.toNat = (s.pc.toNat + if p then 4 else 2) % 65536 := by
  refine ⟨_, rfl, ?_⟩
  by_cases h : p <;> simp [h]

/-- SNE's skip, said by the equality it tests for the absence of. -/
theorem State.skipIf_not_advances (s : State) (p : Prop) [Decidable p] :
    ∃ t, s.skipIf (¬ p) = .next t ∧ t.pc.toNat = (s.pc.toNat + if p then 2 else 4) % 65536 := by
  simpa only [ite_not] using s.skipIf_advances (¬ p)

/-- Settles O17: SE skips if its operands are equal, SNE if they are not. -/
theorem valueSkipsAdvanceByFourOrTwo : Obligations.ValueSkipsAdvanceByFourOrTwo := fun _ _ _ s =>
  ⟨s.skipIf_advances _, s.skipIf_not_advances _, s.skipIf_advances _, s.skipIf_not_advances _⟩

end Sys2Proof.Machine

/-! SUPPORT. Registers and flags (41_alu): what a flag is as a number, what a difference or a shift reads once VF has
taken the flag, and how many draws an instruction takes. -/
namespace Sys2Proof.Machine

/-! ## Flags as numbers (R19) -/

theorem flagByte_decide_toNat (p : Prop) [Decidable p] : (flagByte (decide p)).toNat = if p then 1 else 0 := by
  by_cases h : p <;> simp [h]

theorem flagByte_getLsbD_toNat (a : Byte) (k : Nat) : (flagByte (a.getLsbD k)).toNat = a.toNat / 2 ^ k % 2 := by
  have hbit : (flagByte (a.getLsbD k)).toNat = (a.getLsbD k).toNat := by cases a.getLsbD k <;> rfl
  rw [hbit, BitVec.getLsbD, Nat.toNat_testBit]

theorem flagByte_bitOutRight_toNat (a : Byte) : (flagByte (bitOutRight a)).toNat = a.toNat % 2 :=
  (flagByte_getLsbD_toNat a 0).trans (by rw [Nat.pow_zero, Nat.div_one])

theorem flagByte_bitOutLeft_toNat (a : Byte) : (flagByte (bitOutLeft a)).toNat = a.toNat / 128 :=
  (flagByte_getLsbD_toNat a 7).trans (by omega)

/-! ## The flag first, then the destination (R96 to R99) -/

/-- How an instruction ends whose meaning is to write a flag into VF and then a byte into V[X]. -/
theorem exec_of_setFlag_setReg {i : Instr} {s : State} {x : RegIdx} {c : Bool} {b : Byte}
    (h : exec i s = ((s.setFlag c).setReg x b).done) :
    ∃ t, exec i s = .next t ∧ t.pc = s.pc + 2 ∧ (∀ r, r ≠ x → r ≠ 15 → t.reg r = s.reg r) ∧
      (x ≠ 15 → t.reg 15 = flagByte c) ∧ t.reg x = b := by
  refine ⟨_, h, rfl, fun r hx hF => ?_, fun hx => ?_, ?_⟩
  · rw [State.reg_advance, State.reg_setReg_ne _ hx, State.reg_setFlag_ne _ hF]
  · rw [State.reg_advance, State.reg_setReg_ne _ hx.symm, State.reg_setFlag_vF]
  · rw [State.reg_advance, State.reg_setReg_same]

section
variable (s : State)

/-- A register read once VF holds a flag of value `f`. -/
theorem State.reg_setFlag_toNat {c : Bool} {f : Nat} (hf : (flagByte c).toNat = f) (r : RegIdx) :
    ((s.setFlag c).reg r).toNat = if r = 15 then f else (s.reg r).toNat := by
  rw [State.reg_setFlag, apply_ite BitVec.toNat, hf]

/-- A difference mod 256 of registers read once VF holds a flag of value `f`. -/
theorem State.sub_setFlag_toNat {c : Bool} {f : Nat} (hf : (flagByte c).toNat = f) (p q : RegIdx) :
    ((s.setFlag c).reg p - (s.setFlag c).reg q).toNat =
      ((if p = 15 then f else (s.reg p).toNat) + 256 - if q = 15 then f else (s.reg q).toNat) % 256 := by
  rw [← s.reg_setFlag_toNat hf p, ← s.reg_setFlag_toNat hf q, BitVec.toNat_sub]
  omega

theorem State.shiftReg_eq (x y : RegIdx) : s.shiftReg x y = if s.params.shiftSource = .x then x else y := by
  unfold State.shiftReg
  cases s.params.shiftSource <;> rfl

end

/-- SUB and SUBN at once: V[P] - V[Q] into V[X], with the flag in the place of each operand that is VF. -/
theorem exec_of_sub_setFlag {i : Instr} {s : State} {x p q : RegIdx} {c : Bool} {f : Nat}
    (h : exec i s = ((s.setFlag c).setReg x ((s.setFlag c).reg p - (s.setFlag c).reg q)).done)
    (hc : c = noBorrow (s.reg p) (s.reg q)) (hf : f = if (s.reg q).toNat ≤ (s.reg p).toNat then 1 else 0) :
    ∃ t, exec i s = .next t ∧ t.pc = s.pc + 2 ∧ (∀ r, r ≠ x → r ≠ 15 → t.reg r = s.reg r) ∧
      (x ≠ 15 → (t.reg 15).toNat = f) ∧
      (t.reg x).toNat = ((if p = 15 then f else (s.reg p).toNat) + 256 - if q = 15 then f else (s.reg q).toNat) % 256 := by
  subst hc
  have hflag : (flagByte (noBorrow (s.reg p) (s.reg q))).toNat = f := (flagByte_decide_toNat _).trans hf.symm
  obtain ⟨t, ht, hpc, hframe, hvF, hx⟩ := exec_of_setFlag_setReg h
  exact ⟨t, ht, hpc, hframe, fun hX => by rw [hvF hX, hflag], by rw [hx, s.sub_setFlag_toNat hflag]⟩

/-- Settles O23: V[X] - V[Y], the flag standing in for X or Y as each corner case says. -/
theorem subWritesTheFlagFirst : Obligations.SubWritesTheFlagFirst := by
  intro x y s f hf
  obtain ⟨t, ht, hpc, hframe, hvF, hx⟩ := exec_of_sub_setFlag (i := .subVxVy x y) (p := x) (q := y) rfl rfl hf
  refine ⟨t, ht, hpc, hframe, hvF, fun hX hY => ?_, fun hX hY => ?_, ?_, ?_⟩
  · rw [hx, if_neg hX, if_neg hY]
  · rw [hx, if_neg hX, if_pos hY]
  · rintro rfl hY
    rw [hx, if_pos rfl, if_neg hY]
  · rintro rfl rfl
    rw [hx, if_pos rfl, Nat.add_sub_cancel_left]

/-- Settles O24: V[Y] - V[X], the flag standing in for Y or X as each corner case says. -/
theorem subnWritesTheFlagFirst : Obligations.SubnWritesTheFlagFirst := by
  intro x y s f hf
  obtain ⟨t, ht, hpc, hframe, hvF, hx⟩ := exec_of_sub_setFlag (i := .subnVxVy x y) (p := y) (q := x) rfl rfl hf
  refine ⟨t, ht, hpc, hframe, hvF, fun hX hY => ?_, fun hX hY => ?_, ?_, ?_⟩
  · rw [hx, if_neg hY, if_neg hX]
  · rw [hx, if_pos hY, if_neg hX]
  · rintro rfl hY
    rw [hx, if_neg hY, if_pos rfl]
  · rintro rfl rfl
    rw [hx, if_pos rfl, Nat.add_sub_cancel_left]

/-- Settles O25: the source re-read is the flag if it is VF, and half a flag is 0. -/
theorem shrHalvesAndKeepsTheLowBit : Obligations.ShrHalvesAndKeepsTheLowBit := by
  intro x y src s hsrc
  obtain rfl : src = s.shiftReg x y := hsrc.trans (s.shiftReg_eq x y).symm
  have hflag := flagByte_bitOutRight_toNat (s.reg (s.shiftReg x y))
  obtain ⟨t, ht, hpc, hframe, hvF, hx⟩ := exec_of_setFlag_setReg (i := .shrVxVy x y) (s := s) rfl
  have hhalf := congrArg BitVec.toNat hx
  rw [BitVec.toNat_ushiftRight, Nat.shiftRight_eq_div_pow, Nat.pow_one, s.reg_setFlag_toNat hflag] at hhalf
  refine ⟨t, ht, hpc, hframe, fun hX => by rw [hvF hX, hflag], fun hS => ?_, fun hS => ?_⟩
  · rw [hhalf, if_neg hS]
  · rw [hhalf, if_pos hS]
    omega

/-- Settles O26: the source re-read is the flag if it is VF, and twice a flag does not wrap. -/
theorem shlDoublesAndKeepsTheHighBit : Obligations.ShlDoublesAndKeepsTheHighBit := by
  intro x y src s hsrc
  obtain rfl : src = s.shiftReg x y := hsrc.trans (s.shiftReg_eq x y).symm
  have hflag := flagByte_bitOutLeft_toNat (s.reg (s.shiftReg x y))
  obtain ⟨t, ht, hpc, hframe, hvF, hx⟩ := exec_of_setFlag_setReg (i := .shlVxVy x y) (s := s) rfl
  have hdouble := congrArg BitVec.toNat hx
  rw [BitVec.toNat_shiftLeft, Nat.shiftLeft_eq, Nat.pow_one, Nat.mul_comm, s.reg_setFlag_toNat hflag] at hdouble
  refine ⟨t, ht, hpc, hframe, fun hX => by rw [hvF hX, hflag], fun hS => ?_, fun hS => ?_⟩
  · rw [hdouble, if_neg hS]
  · rw [hdouble, if_pos hS]
    omega

/-! ## The oracle (R100, R101) -/

theorem Writes.draws_eq {i : Instr} {s u : State} (hw : Writes i s u) (hi : ∀ x nn, i ≠ .rndVxByte x nn) :
    u.draws = s.draws := by
  induction hw with
  | draw _ h =>
    obtain ⟨x, nn, h⟩ := h
    exact absurd h (hi x nn)
  | start => rfl
  | _ => assumption

/-- Settles O27: RND's meaning is one draw and one register write, and no other instruction's writes hold a draw. -/
theorem rndTakesTheOneDraw : Obligations.RndTakesTheOneDraw := by
  refine ⟨fun x nn s => ⟨_, rfl, s.drawRng.2.reg_setReg_same x _, rfl, rfl⟩, fun i s t h hi => ?_⟩
  obtain ⟨u, w, hw, rfl⟩ := writes_of_exec h
  exact hw.draws_eq hi

/-! ## Loads, sums and logic (R89 to R95, R116) -/

/-- Settles O19: the register written holds the operand. -/
theorem loadsCopyTheirOperand : Obligations.LoadsCopyTheirOperand := fun x y nn s =>
  ⟨⟨_, rfl, s.reg_setReg_same x nn, rfl⟩, ⟨_, rfl, s.reg_setReg_same x (s.reg y), rfl⟩,
    ⟨_, rfl, s.reg_setReg_same x s.dt, rfl⟩⟩

/-- Settles O20: V[X] is the only register written. -/
theorem addByteWrapsWithoutAFlag : Obligations.AddByteWrapsWithoutAFlag := by
  refine fun x nn s => ⟨_, rfl, ?_, fun r hr => s.reg_setReg_ne hr _, rfl⟩
  rw [State.reg_advance, State.reg_setReg_same, BitVec.toNat_add]

/-- Settles O21: V[X] is the only register written, with the operation of each pair of bits. -/
theorem logicWorksBitByBit : Obligations.LogicWorksBitByBit := by
  refine fun x y s => ⟨⟨_, rfl, fun k _ => ?_, fun r hr => s.reg_setReg_ne hr _, rfl⟩,
    ⟨_, rfl, fun k _ => ?_, fun r hr => s.reg_setReg_ne hr _, rfl⟩,
    ⟨_, rfl, fun k _ => ?_, fun r hr => s.reg_setReg_ne hr _, rfl⟩⟩
  · rw [State.reg_advance, State.reg_setReg_same, BitVec.getLsbD_or]
  · rw [State.reg_advance, State.reg_setReg_same, BitVec.getLsbD_and]
  · rw [State.reg_advance, State.reg_setReg_same, BitVec.getLsbD_xor, Bool.bne_eq_xor]

/-- Settles O22: the carry is of the operands from before, and its write to VF is the last. -/
theorem addRegistersCarriesIntoVF : Obligations.AddRegistersCarriesIntoVF := by
  refine fun x y s => ⟨_, rfl, ?_, fun hX => ?_, fun r hr hF => ?_, rfl⟩
  · rw [State.reg_advance, State.reg_setFlag_vF]
    exact flagByte_decide_toNat _
  · rw [State.reg_advance, State.reg_setFlag_ne _ hX, State.reg_setReg_same, BitVec.toNat_add]
  · rw [State.reg_advance, State.reg_setFlag_ne _ hF, State.reg_setReg_ne _ hr]

end Sys2Proof.Machine

/-! SUPPORT. I and memory (42_index_memory): when the loads and stores at I, I + 1, ... complete, what they leave of I and
PC, and which fault they raise otherwise. -/
namespace Sys2Proof.Machine

/-! ## I and the font (R103 to R105) -/

/-- Settles O28: NNN is zero-extended, the sum wraps at 16 bits, and I is all that is written. -/
theorem indexLoadsAndAdds : Obligations.IndexLoadsAndAdds := by
  refine fun nnn x s => ⟨⟨_, rfl, zextAddr_toNat nnn, fun _ => rfl, rfl⟩, ⟨_, rfl, ?_, fun _ => rfl, rfl⟩⟩
  rw [State.advance_i, State.setI_i, BitVec.toNat_add, zextByte_toNat]

theorem glyphAddr_toNat (d : Fin 16) : (glyphAddr d).toNat = 5 * d.val :=
  (BitVec.toNat_ofNat _ _).trans (Nat.mod_eq_of_lt (by omega))

/-- Settles O29: V[X] is a digit, or it is not. -/
theorem fontAddressIsFiveTimesTheDigit : Obligations.FontAddressIsFiveTimesTheDigit := by
  refine fun x s => ⟨fun hle => ?_, fun hgt => ?_⟩
  · have hdigit : s.digitOf x = .ok ⟨(s.reg x).toNat, by omega⟩ := State.digitOf_ok_iff.2 rfl
    exact ⟨_, orRaise_next_iff.2 ⟨_, hdigit, rfl⟩, glyphAddr_toNat _, rfl⟩
  · exact orRaise_fault_iff.2 (.inl (State.digitOf_error_iff.2 ⟨hgt, rfl⟩))

/-! ## Addresses that may be written or read (R49, R50) -/

theorem AllWritable.valid {a n : Nat} (h : AllWritable a n) : ∀ k < n, valid (a + k) = true :=
  fun k hk => (valid_iff _).2 (h k hk)

theorem State.AllReadable.memRead_ok {s : State} {a n : Nat} (h : s.AllReadable a n) :
    ∀ k < n, ∃ b, s.memRead (a + k) = .ok b := by
  intro k hk
  obtain ⟨hr, b, hb⟩ := h k hk
  exact ⟨b, State.memRead_ok_iff.2 ⟨(readable_iff _).2 hr, hb⟩⟩

theorem State.AllReadable.readBytes_ok {s : State} {a n : Nat} (h : s.AllReadable a n) :
    ∃ bs, s.readBytes a n = .ok bs := by
  cases hread : s.readBytes a n with
  | ok bs => exact ⟨bs, rfl⟩
  | error f =>
    obtain ⟨k, hk, hf⟩ := State.readBytes_error_inv hread
    obtain ⟨b, hb⟩ := h.memRead_ok k hk
    simp [hb] at hf

theorem State.byteAt_of_readBytes {s : State} {a n k : Nat} {bs : List Byte} (h : s.readBytes a n = .ok bs)
    (hk : k < n) : s.byteAt (a + k) = some (bs.getD k 0) := by
  obtain ⟨-, hread⟩ := State.readBytes_ok_iff.1 h
  obtain ⟨-, hbyte⟩ := State.memRead_ok_iff.1 (hread k hk)
  exact hbyte

/-! ## What moving bytes leaves unchanged -/

section
variable (s : State)

@[simp] theorem State.setBytes_i (a : Nat) (bs : List Byte) : (s.setBytes a bs).i = s.i := by rw [State.setBytes_eq]
@[simp] theorem State.setBytes_pc (a : Nat) (bs : List Byte) : (s.setBytes a bs).pc = s.pc := by rw [State.setBytes_eq]
@[simp] theorem State.setBytes_params (a : Nat) (bs : List Byte) : (s.setBytes a bs).params = s.params := by
  rw [State.setBytes_eq]

@[simp] theorem State.loadRegs_i (k : Nat) (bs : List Byte) : (s.loadRegs k bs).i = s.i := by rw [State.loadRegs_eq]
@[simp] theorem State.loadRegs_pc (k : Nat) (bs : List Byte) : (s.loadRegs k bs).pc = s.pc := by rw [State.loadRegs_eq]
@[simp] theorem State.loadRegs_params (k : Nat) (bs : List Byte) : (s.loadRegs k bs).params = s.params := by
  rw [State.loadRegs_eq]

theorem State.byteAt_setBytes_add (a : Nat) {k : Nat} {bs : List Byte} (hk : k < bs.length) :
    (s.setBytes a bs).byteAt (a + k) = some (bs.getD k 0) := by
  rw [State.byteAt_setBytes, if_pos (by omega), Nat.add_sub_cancel_left]

end

/-- I and PC after FX55 or FX65, where `u` is `s` with the bytes moved (R107, R108). -/
theorem State.incrementI_advance {s u : State} (n : Nat) (hi : u.i = s.i) (hparams : u.params = s.params)
    (hpc : u.pc = s.pc) :
    (s.params.loadStoreIncrementsI = false → ((u.incrementI n).advance 2).i = s.i) ∧
    (s.params.loadStoreIncrementsI = true → ((u.incrementI n).advance 2).i.toNat = (s.i.toNat + n) % 65536) ∧
    ((u.incrementI n).advance 2).pc = s.pc + 2 := by
  rw [State.incrementI_eq, hparams]
  refine ⟨fun hstay => ?_, fun hmove => ?_, ?_⟩
  · simp [hstay, hi]
  · simp [hmove, hi]
  · simp [hpc]

/-! ## Stores and loads that complete (R106 to R108) -/

theorem exec_ldBVx_completes (x : RegIdx) {s : State} (h : AllWritable s.indexAddr 3) :
    exec (.ldBVx x) s = .next ((s.setBytes s.indexAddr (decimalDigits (s.reg x))).advance 2) :=
  orRaise_next_iff.2 ⟨_, State.writeBytes_ok_iff.2 ⟨h.valid, rfl⟩, rfl⟩

theorem exec_ldMemIVx_completes {x : RegIdx} {s : State} (h : AllWritable s.indexAddr (x.val + 1)) :
    exec (.ldMemIVx x) s = .next (((s.setBytes s.indexAddr (s.regsUpTo x)).incrementI (x.val + 1)).advance 2) :=
  orRaise_next_iff.2 ⟨_, State.writeBytes_ok_iff.2 ⟨by simpa using h.valid, rfl⟩, rfl⟩

theorem decimalDigits_spec (b : Byte) : ∃ h d u, decimalDigits b = [h, d, u] ∧
    100 * h.toNat + 10 * d.toNat + u.toNat = b.toNat ∧ d.toNat ≤ 9 ∧ u.toNat ≤ 9 := by
  refine ⟨_, _, _, rfl, ?_⟩
  simp only [BitVec.toNat_ofNat]
  omega

/-- Settles O30: the three bytes stored are the digits, and a store changes neither I nor, but for the advance, PC. -/
theorem decimalDigitsAreStored : Obligations.DecimalDigitsAreStored := by
  intro x s hw
  obtain ⟨h, d, u, hdigits, hsum, htens, hunits⟩ := decimalDigits_spec (s.reg x)
  have ht := exec_ldBVx_completes x hw
  rw [hdigits] at ht
  have hbyte : ∀ k < 3, (s.setBytes s.indexAddr [h, d, u]).byteAt (s.indexAddr + k) = some ([h, d, u].getD k 0) :=
    fun k hk => s.byteAt_setBytes_add _ hk
  exact ⟨_, h, d, u, ht, hbyte 0 (by omega), hbyte 1 (by omega), hbyte 2 (by omega), hsum, htens, hunits, rfl, rfl⟩

/-- Settles O31: a read of the bytes stored answers V0 to V[X]. -/
theorem blockStoreWritesTheRegisters : Obligations.BlockStoreWritesTheRegisters := by
  intro x s hw
  have ht := exec_ldMemIVx_completes hw
  refine ⟨_, ht, fun r hr => ?_, State.incrementI_advance (x.val + 1) (by simp) (by simp) (by simp)⟩
  rw [State.byteAt_of_readBytes (readBytes_of_execLdMemIVx ht) (Nat.lt_succ_of_le hr), State.regsUpTo_getD s x r hr]

/-- Settles O32: each address is read, and its byte goes to the register of its place. -/
theorem blockLoadReadsTheRegisters : Obligations.BlockLoadReadsTheRegisters := by
  intro x s hall
  obtain ⟨bs, hread⟩ := hall.readBytes_ok
  obtain ⟨t, ht, hreg⟩ := execLdVxMemI_of_readBytes hread
  refine ⟨t, ht, fun r hr => ?_, ?_⟩
  · rw [State.byteAt_of_readBytes hread (Nat.lt_succ_of_le hr), hreg r hr]
  · obtain ⟨cs, -, rfl⟩ := execLdVxMemI_next ht
    exact State.incrementI_advance (x.val + 1) (by simp) (by simp) (by simp)

/-! ## Stores and loads that fault (R127) -/

/-- Settles O34: `writeBytes` raises the fault of the first address outside the program region. -/
theorem storesFaultAtTheFirstBadAddress : Obligations.StoresFaultAtTheFirstBadAddress := by
  intro x s k hw hbad
  have hfault : ∀ bs : List Byte, k < bs.length →
      s.writeBytes s.indexAddr bs = .error (.outOfRangeAccess (s.indexAddr + k) .write s.pc) := by
    intro bs hk
    have hv : valid (s.indexAddr + k) = false := by rwa [← Bool.not_eq_true, valid_iff]
    exact State.writeBytes_error hk hv hw.valid
  refine ⟨fun hk => ?_, fun hk => ?_⟩
  · exact orRaise_fault_iff.2 (.inl (hfault (decimalDigits (s.reg x)) hk))
  · have hlen : k < (s.regsUpTo x).length := by
      rw [State.regsUpTo_length]
      omega
    exact orRaise_fault_iff.2 (.inl (hfault _ hlen))

/-- Settles O35: `readBytes` raises the fault of the first address that does not read. -/
theorem readsFaultAtTheFirstBadAddress : Obligations.ReadsFaultAtTheFirstBadAddress := by
  intro x y n s k f hall hbad
  have hread : s.memRead (s.indexAddr + k) = .error f := by
    rw [State.memRead_error_iff, ← Bool.not_eq_true, readable_iff]
    exact hbad
  have hfault : ∀ m, k < m → s.readBytes s.indexAddr m = .error f :=
    fun m hk => State.readBytes_error hk hread hall.memRead_ok
  refine ⟨fun hk => ?_, fun hk => ?_⟩
  · exact orRaise_fault_iff.2 (.inl (hfault _ hk))
  · exact orRaise_fault_iff.2 (.inl (hfault _ (Nat.lt_succ_of_le hk)))

/-! ## The frame of memory -/

/-- Settles O50: an instruction's writes are to bytes it stores to, and PC is no part of memory. -/
theorem onlyStoredBytesChange : Obligations.OnlyStoredBytesChange := by
  intro i s t a h ha
  obtain ⟨u, w, hw, rfl⟩ := writes_of_exec h
  exact hw.byteAt_eq fun hstore => ha hstore.2

end Sys2Proof.Machine

/-! SUPPORT. The display (43_display): how DRW ends when its rows are readable, and what a second draw does. -/
namespace Sys2Proof.Machine

/-! ## Clearing (R109) -/

/-- Settles O38: CLS sets the blank framebuffer. -/
theorem clsClearsEveryPixel : Obligations.ClsClearsEveryPixel := fun _ =>
  ⟨_, rfl, Framebuffer.pixel_blank, rfl, fun _ => rfl, rfl⟩

/-! ## Drawing once (R110) -/

theorem Flips.hit_iff {P : Fin 32 → Fin 64 → Prop} {fb : Framebuffer} {d : Framebuffer × Bool}
    (h : Flips P (fb, false) d) : d.2 = true ↔ ∃ r c, P r c ∧ fb.pixel r c = true := by
  simpa using h.hit

/-- A flag that says whether `p` holds is 1 if it does and 0 if not. -/
theorem one_or_zero_of_flagByte {b : Byte} {c : Bool} {p : Prop} (hb : b = flagByte c) (h : c = true ↔ p) :
    (p → b = 1) ∧ (¬ p → b = 0) := by
  rw [hb, ← h]
  cases c <;> simp

/-- The rows DRW reads are at most 15, so no pixel is covered twice. -/
theorem drawSprite_flips_of_readBytes {s : State} {a x y : Nat} {n : Nibble} {rows : List Byte}
    (h : s.readBytes a n.toNat = .ok rows) (acc : Framebuffer × Bool) :
    Flips (SpriteCovers rows x y) acc (drawSprite x y rows acc) := by
  obtain ⟨hlen, -⟩ := State.readBytes_ok_iff.1 h
  exact drawSprite_flips x y rows (by omega) acc

/-- DRW flips the pixels covered by the rows it reads, and writes the hit to VF last. -/
theorem exec_drwVxVyNibble_flips (x y : RegIdx) {n : Nibble} {s : State} {rows : List Byte}
    (h : s.readBytes s.indexAddr n.toNat = .ok rows) :
    ∃ t hit, exec (.drwVxVyNibble x y n) s = .next t ∧
      Flips (SpriteCovers rows (s.reg x).toNat (s.reg y).toNat) (s.fb, false) (t.fb, hit) ∧
      t.reg 15 = flagByte hit ∧ t.dirty = true ∧ t.pc = s.pc + 2 := by
  refine ⟨_, _, orRaise_next_iff.2 ⟨rows, h, rfl⟩, drawSprite_flips_of_readBytes h _, ?_, rfl, rfl⟩
  exact State.reg_setFlag_vF _ _

/-- Settles O39: the rows are read, each covered pixel is flipped once, and the hit goes to VF. -/
theorem drwFlipsTheCoveredPixels : Obligations.DrwFlipsTheCoveredPixels := by
  intro x y n s rows hlen hrows
  have hread : s.readBytes s.indexAddr n.toNat = .ok rows := State.readBytes_ok_iff.2 ⟨hlen, fun k hk => by
    obtain ⟨hr, hb⟩ := hrows k hk
    exact State.memRead_ok_iff.2 ⟨(readable_iff _).2 hr, hb⟩⟩
  obtain ⟨t, hit, ht, hflips, hvf, hdirty, hpc⟩ := exec_drwVxVyNibble_flips x y hread
  obtain ⟨hone, hzero⟩ := one_or_zero_of_flagByte hvf hflips.hit_iff
  exact ⟨t, ht, hflips.flipped, hflips.kept, hone, hzero, hdirty, hpc⟩

/-! ## Drawing twice (R112) -/

section
variable {P : Fin 32 → Fin 64 → Prop} {a b c : Framebuffer × Bool} {hit : Bool}

/-- Flipping the same pixels again restores them. -/
theorem Flips.restores (h1 : Flips P a b) (h2 : Flips P (b.1, hit) c) : c.1 = a.1 := by
  refine Framebuffer.ext_pixel fun r k => ?_
  by_cases hp : P r k
  · rw [h2.flipped r k hp, h1.flipped r k hp, Bool.not_not]
  · rw [h2.kept r k hp, h1.kept r k hp]

/-- The flipped pixels that are 1 afterwards are those that went from 0 to 1. -/
theorem Flips.covered_on_iff (h : Flips P a b) (r : Fin 32) (k : Fin 64) :
    P r k ∧ b.1.pixel r k = true ↔ a.1.pixel r k = false ∧ b.1.pixel r k = true := by
  refine and_congr_left fun hon => ⟨fun hp => ?_, fun hoff => ?_⟩
  · rwa [h.flipped r k hp, Bool.not_eq_true'] at hon
  · by_contra hp
    rw [h.kept r k hp, hoff] at hon
    cases hon

end

/-- Settles O40: the second draw reads the same rows, so it flips the same pixels, and the pixels it finds set among them
are those the first draw turned on. -/
theorem drawingTwiceRestoresTheDisplay : Obligations.DrawingTwiceRestoresTheDisplay := by
  intro x y n s t u h hfb hmem hparams hi hx hy
  obtain ⟨rows, d, hread, hdraw, ht⟩ := execDrwVxVyNibble_next h
  have hfirst : Flips (SpriteCovers rows (s.reg x).toNat (s.reg y).toNat) (s.fb, false) (t.fb, d.2) := by
    rw [ht]
    exact hdraw ▸ drawSprite_flips_of_readBytes hread _
  obtain ⟨htmem, htparams, hti⟩ : t.mem = s.mem ∧ t.params = s.params ∧ t.i = s.i := by
    rw [ht]
    exact ⟨rfl, rfl, rfl⟩
  have hagain : u.readBytes u.indexAddr n.toNat = .ok rows := by
    have haddr : u.indexAddr = s.indexAddr := congrArg BitVec.toNat (hi.trans hti)
    rw [haddr]
    exact State.readBytes_ok_congr (hmem.trans htmem) (hparams.trans htparams) hread
  obtain ⟨w, hit, hw, hsecond, hvf, -, -⟩ := exec_drwVxVyNibble_flips x y hagain
  rw [hx, hy, hfb] at hsecond
  have hcollides : hit = true ↔ ∃ r c, s.fb.pixel r c = false ∧ t.fb.pixel r c = true :=
    hsecond.hit_iff.trans (exists_congr fun r => exists_congr fun c => hfirst.covered_on_iff r c)
  exact ⟨w, hw, hfirst.restores hsecond, one_or_zero_of_flagByte hvf hcollides⟩

end Sys2Proof.Machine

/-! SUPPORT. Timers and keys (44_timers_input): where the key skips send PC, what the key wait ends with, and what the host
reads of a timer. -/
namespace Sys2Proof.Machine

/-! ## The key skips (R114, R115) -/

theorem State.skipIf_moves_pc (s : State) (c : Bool) :
    ∃ t, s.skipIf c = .next t ∧ t.pc = s.pc + if c = true then 4 else 2 := by
  refine ⟨_, rfl, ?_⟩
  cases c <;> rfl

/-- SKNP's skip, said by the condition whose absence it tests. -/
theorem State.skipIf_not_moves_pc (s : State) (c : Bool) :
    ∃ t, s.skipIf (!c) = .next t ∧ t.pc = s.pc + if c = true then 2 else 4 := by
  cases c <;> exact s.skipIf_moves_pc _

/-- What follows `digitOf` runs on the digit that V[X] holds. -/
theorem orRaise_digitOf {s : State} {x : RegIdx} {d : Fin 16} (h : (s.reg x).toNat = d.val) (k : Fin 16 → Result) :
    orRaise (s.digitOf x) k = k d := by
  rw [State.digitOf_ok_iff.2 h, orRaise_ok]

theorem orRaise_digitOf_faults {s : State} {x : RegIdx} (h : 15 < (s.reg x).toNat) (k : Fin 16 → Result) :
    orRaise (s.digitOf x) k = .fault (.operandOutOfRange (s.reg x) s.pc) :=
  orRaise_fault_iff.2 (.inl (State.digitOf_error_iff.2 ⟨h, rfl⟩))

/-- Settles O41: V[X] names the key whose entry decides the skip, or it is no key number. -/
theorem keySkipsReadTheMatrix : Obligations.KeySkipsReadTheMatrix := by
  refine fun x s => ⟨fun k hk => ⟨?_, ?_⟩, fun hgt => ⟨orRaise_digitOf_faults hgt _, orRaise_digitOf_faults hgt _⟩⟩
  · have hskp : exec (.skpVx x) s = s.skipIf (s.key k) := orRaise_digitOf hk _
    exact hskp ▸ s.skipIf_moves_pc _
  · have hsknp : exec (.sknpVx x) s = s.skipIf (!s.key k) := orRaise_digitOf hk _
    exact hsknp ▸ s.skipIf_not_moves_pc _

/-! ## The key wait (R117) -/

@[simp] theorem State.advance_zero (s : State) : s.advance 0 = s :=
  congrArg s.setPc (BitVec.add_zero s.pc)

theorem exec_ldVxK_of_some {s : State} {k : Fin 16} (h : s.lowestKey = some k) (x : RegIdx) :
    exec (.ldVxK x) s = (s.setReg x (BitVec.ofNat 8 k.val)).done := by
  rw [exec, execLdVxK, h]

theorem exec_ldVxK_of_none {s : State} (h : s.lowestKey = none) (x : RegIdx) : exec (.ldVxK x) s = .next s := by
  rw [exec, execLdVxK, h, State.advance_zero]

/-- Settles O42: the least pressed key is the one `lowestKey` answers, and its number is a byte; with none pressed it
answers none. -/
theorem keyWaitStoresTheLeastKey : Obligations.KeyWaitStoresTheLeastKey := by
  refine fun x s => ⟨fun k hk hleast => ?_, fun hnone => ?_⟩
  · refine ⟨_, exec_ldVxK_of_some (State.lowestKey_eq_some_iff.2 ⟨hk, hleast⟩) x, ?_, rfl⟩
    rw [State.reg_advance, State.reg_setReg_same, BitVec.toNat_ofNat, Nat.mod_eq_of_lt (by omega)]
  · exact exec_ldVxK_of_none (State.lowestKey_eq_none_iff.2 hnone) x

/-! ## The timers (R118, R119, R137) -/

theorem State.delayIssued_iff (s : State) : s.delayIssued = true ↔ s.dt ≠ 0 := decide_eq_true_iff

theorem State.soundIssued_iff (s : State) : s.soundIssued = true ↔ s.st ≠ 0 := decide_eq_true_iff

/-- Settles O43: the timer holds V[X], the other timer is not written, and the host reads whether the timer is nonzero. -/
theorem timerWritesTakeTheRegister : Obligations.TimerWritesTakeTheRegister := fun _ _ =>
  ⟨⟨_, rfl, rfl, rfl, State.delayIssued_iff _, rfl⟩, ⟨_, rfl, rfl, rfl, State.soundIssued_iff _, rfl⟩⟩

end Sys2Proof.Machine


/-! SUPPORT. How a step ends without a next state (60_exceptions R121 to R127): what the table of R123 lists for each
instruction, what fetch and decode raise and in which order, and the PC every fault record carries. -/
namespace Sys2Proof.Machine

/-! ## The faults of each instruction (R123) -/

/-- An operation whose raised faults are all `P`, before a meaning that completes, completes or raises such a fault. -/
theorem orRaise_completes_or_faults {α : Type} {r : Except Fault α} {k : α → Result} {P : Fault → Prop}
    (hr : ∀ f, r = .error f → P f) (hk : ∀ a, ∃ t, k a = .next t := by exact fun _ => ⟨_, rfl⟩) :
    (∃ t, orRaise r k = .next t) ∨ ∃ f, orRaise r k = .fault f ∧ P f := by
  cases r with
  | ok a => exact .inl (hk a)
  | error f => exact .inr ⟨f, rfl, hr f rfl⟩

/-- A block of reads raises a read fault or an unset read, at one of its addresses. -/
theorem State.readBytes_fault {s : State} {a n : Nat} {f : Fault} (h : s.readBytes a n = .error f) :
    ∃ b, f = .outOfRangeAccess b .read s.pc ∨ f = .unsetRead b s.pc := by
  obtain ⟨k, -, hk⟩ := State.readBytes_error_inv h
  obtain ⟨-, hf⟩ | ⟨-, -, hf⟩ := State.memRead_error_iff.1 hk
  · exact ⟨a + k, .inl hf⟩
  · exact ⟨a + k, .inr hf⟩

theorem exec_ldVxK_completes (x : RegIdx) (s : State) : ∃ t, exec (.ldVxK x) s = .next t := by
  cases hkey : s.lowestKey with
  | some k => exact ⟨_, exec_ldVxK_of_some hkey x⟩
  | none => exact ⟨s, exec_ldVxK_of_none hkey x⟩

/-- Settles O10: the one operation of each instruction that can raise a fault raises only those listed for it. -/
theorem instructionsCompleteOrFaultAsListed : Obligations.InstructionsCompleteOrFaultAsListed := by
  intro i s
  cases i with
  | drwVxVyNibble | ldVxMemI =>
    refine orRaise_completes_or_faults fun f hf => ?_
    obtain ⟨a, ha⟩ := State.readBytes_fault hf
    exact .inl ⟨a, ha, by simp⟩
  | ldBVx | ldMemIVx =>
    refine orRaise_completes_or_faults fun f hf => ?_
    obtain ⟨k, -, -, rfl⟩ := State.writeBytes_error_inv hf
    exact .inr (.inl ⟨_, rfl, by simp⟩)
  | callAddr nnn =>
    refine orRaise_completes_or_faults fun f hf => ?_
    obtain ⟨hfull, rfl⟩ := State.push_error_iff.1 hf
    exact .inr (.inr (.inl ⟨rfl, by omega, nnn, rfl⟩))
  | ret =>
    refine orRaise_completes_or_faults fun f hf => ?_
    obtain ⟨hempty, rfl⟩ := State.pop_error_iff.1 hf
    exact .inr (.inr (.inr (.inl ⟨rfl, hempty, rfl⟩)))
  | skpVx x | sknpVx x | ldFVx x =>
    refine orRaise_completes_or_faults fun f hf => ?_
    obtain ⟨hgt, rfl⟩ := State.digitOf_error_iff.1 hf
    exact .inr (.inr (.inr (.inr ⟨x, rfl, hgt, by simp⟩)))
  | ldVxK x => exact .inl (exec_ldVxK_completes x s)
  | _ => exact .inl ⟨_, rfl⟩

theorem faultPc_of_exec {i : Instr} {s : State} {f : Fault} (h : exec i s = .fault f) : faultPc f = s.pc := by
  obtain ⟨t, ht⟩ | ⟨g, hg, hlist⟩ := instructionsCompleteOrFaultAsListed i s
  · simp [ht] at h
  · obtain rfl := Host.Outcome.fault.inj (hg.symm.trans h)
    obtain ⟨a, rfl | rfl, -⟩ | ⟨a, rfl, -⟩ | ⟨rfl, -⟩ | ⟨rfl, -⟩ | ⟨x, rfl, -⟩ := hlist <;> rfl

/-! ## Fetch and decode (R127) -/

section
variable {s : State} {f : Fault}

theorem State.decodeWord_error_iff {w : Word} : s.decodeWord w = .error f ↔
    ∃ e, decode s.params.haltWords w = .error e ∧ f = .decodeFailure w s.pc := by
  unfold State.decodeWord
  cases decode s.params.haltWords w <;> simp [eq_comm]

/-- The byte at PC is fetched first, then the byte at PC + 1, then their word is decoded; the first that fails is raised. -/
theorem State.fetchInstr_error_iff : s.fetchInstr = .error f ↔
    s.fetchByte s.pc.toNat = .error f ∨
    (∃ hi, s.fetchByte s.pc.toNat = .ok hi ∧ s.fetchByte (s.pc.toNat + 1) = .error f) ∨
    (∃ hi lo e, s.fetchByte s.pc.toNat = .ok hi ∧ s.fetchByte (s.pc.toNat + 1) = .ok lo ∧
      decode s.params.haltWords (wordOfBytes hi lo) = .error e ∧ f = .decodeFailure (wordOfBytes hi lo) s.pc) := by
  unfold State.fetchInstr State.fetchWord
  cases s.fetchByte s.pc.toNat with
  | error g => simp
  | ok hi =>
    cases s.fetchByte (s.pc.toNat + 1) with
    | error g => simp
    | ok lo =>
      simp [State.decodeWord_error_iff]

theorem faultPc_of_fetchByte {a : Nat} (h : s.fetchByte a = .error f) : faultPc f = s.pc := by
  obtain ⟨-, rfl⟩ | ⟨-, -, rfl⟩ := State.fetchByte_error_iff.1 h <;> rfl

theorem faultPc_of_fetchInstr (h : s.fetchInstr = .error f) : faultPc f = s.pc := by
  obtain hhi | ⟨-, -, hlo⟩ | ⟨hi, lo, e, -, -, -, rfl⟩ := State.fetchInstr_error_iff.1 h
  · exact faultPc_of_fetchByte hhi
  · exact faultPc_of_fetchByte hlo
  · rfl

/-! ## The step -/

/-- After a fault no step is taken (R125). -/
theorem step_of_fault (h : s.fault = some f) : step s = .refused .stepAfterFault := by
  simp [step, State.stepRefused, h]

/-- Settles O7: a recorded fault is looked for first, then whether the machine runs. -/
theorem stepAfterHaltOrFaultIsRefused : Obligations.StepAfterHaltOrFaultIsRefused :=
  fun _ => ⟨fun hrun hfault => step_of_normalEnd ⟨hrun, hfault⟩, fun _ => step_of_fault⟩

theorem step_fault_of_fetchInstr (henabled : s.Enabled) (h : s.fetchInstr = .error f) : step s = .fault f := by
  rw [step_of_enabled henabled, h, orRaise_error]

/-- A fault of a step is one of its fetch and decode or of the instruction it fetched. -/
theorem step_fault (h : step s = .fault f) : s.fetchInstr = .error f ∨ ∃ i, exec i s = .fault f := by
  unfold step at h
  split at h
  · cases h
  · obtain hfetch | ⟨i, -, hexec⟩ := orRaise_fault_iff.1 h
    · exact .inl hfetch
    · exact .inr ⟨i, hexec⟩

end

/-- Settles O9: the operation that raises a fault puts the PC the step began with into the record. -/
theorem faultRecordCarriesThePcOfTheStep : Obligations.FaultRecordCarriesThePcOfTheStep := by
  intro s f h
  obtain hfetch | ⟨i, hexec⟩ := step_fault h
  · exact faultPc_of_fetchInstr hfetch
  · exact faultPc_of_exec hexec

section
variable {s : State} {a : Nat}

theorem State.fetchByte_ok {b : Byte} (ha : 0x200 ≤ a ∧ a ≤ 0xFFF) (hb : s.byteAt a = some b) : s.fetchByte a = .ok b :=
  State.fetchByte_ok_iff.2 ⟨(valid_iff a).2 ha, hb⟩

theorem State.fetchByte_unset (ha : 0x200 ≤ a ∧ a ≤ 0xFFF) (hb : s.byteAt a = none) :
    s.fetchByte a = .error (.unsetRead a s.pc) :=
  State.fetchByte_error_iff.2 (.inr ⟨(valid_iff a).2 ha, hb, rfl⟩)

theorem State.fetchByte_outOfRange (ha : ¬ (0x200 ≤ a ∧ a ≤ 0xFFF)) :
    s.fetchByte a = .error (.outOfRangeAccess a .fetch s.pc) :=
  State.fetchByte_error_iff.2 (.inl ⟨by rwa [← Bool.not_eq_true, valid_iff], rfl⟩)

end

/-- Settles O8: each clause is one way for the fetch at PC, the fetch at PC + 1 or the decode to fail, the earlier ones
having succeeded. -/
theorem fetchAndDecodeFaultInOrder : Obligations.FetchAndDecodeFaultInOrder := by
  intro s henabled
  refine ⟨fun hpc => ?_, fun hpc hunset => ?_, fun hi hpc hbhi => ?_, fun hi hpc hbhi hunset => ?_,
    fun hi lo w hpc hbhi hblo hw hdecode => ?_⟩ <;>
    refine step_fault_of_fetchInstr henabled (State.fetchInstr_error_iff.2 ?_)
  · exact .inl (State.fetchByte_outOfRange hpc)
  · exact .inl (State.fetchByte_unset hpc hunset)
  · have hlast : s.pc.toNat + 1 = 0x1000 := by omega
    exact .inr (.inl ⟨hi, State.fetchByte_ok (by omega) hbhi, hlast ▸ State.fetchByte_outOfRange (by omega)⟩)
  · exact .inr (.inl ⟨hi, State.fetchByte_ok (by omega) hbhi, State.fetchByte_unset (by omega) hunset⟩)
  · obtain rfl : wordOfBytes hi lo = w := BitVec.eq_of_toNat_eq ((wordOfBytes_toNat hi lo).trans hw.symm)
    exact .inr (.inr ⟨hi, lo, _, State.fetchByte_ok (by omega) hbhi, State.fetchByte_ok (by omega) hblo, hdecode, rfl⟩)

end Sys2Proof.Machine

/-! SUPPORT. A session (60_exceptions R124 to R139): a recorded fault stays, what each host operation changes, and what
the host reads. -/
namespace Sys2Proof.Machine

/-! ## A recorded fault (R124, R125) -/

section
variable {s t : State} {f : Fault} {op : HostOp} {ops : List HostOp}

theorem State.hostStep_of_fault (h : step s = .fault f) : s.hostStep = .next (s.recordFault f) := by
  rw [State.hostStep, h]

theorem State.apply_step_refused (h : s.fault = some f) : s.apply .step = .refused .stepAfterFault := by
  rw [State.apply, State.hostStep, step_of_fault h]

theorem State.keyEvent_next_iff {k : Nat} {pressed : Bool} :
    s.keyEvent k pressed = .next t ↔ ∃ h : k < 16, t = { s with keys := s.keys.set k pressed } := by
  unfold State.keyEvent
  split
  · next h => simp [h, eq_comm]
  · next h => simp [h]

theorem State.apply_keeps_fault (hs : s.fault = some f) (h : s.apply op = .next t) : t.fault = some f := by
  cases op with
  | step => simp [State.apply_step_refused hs] at h
  | tick | acknowledgeDisplay =>
    obtain rfl := Host.Outcome.next.inj h
    exact hs
  | keyEvent k pressed =>
    obtain ⟨-, rfl⟩ := State.keyEvent_next_iff.1 h
    exact hs

/-- Settles O56: the record is made with the PC of the step, no operation writes it, and `step` looks for it first. -/
theorem aFaultIsRecordedForGood : Obligations.AFaultIsRecordedForGood :=
  ⟨fun _ _ h => ⟨_, State.hostStep_of_fault h, rfl, rfl⟩, fun _ _ _ _ => State.apply_keeps_fault,
    fun _ _ => State.apply_step_refused⟩

/-! ## Schedules (R133, R139) -/

theorem State.session_cons_next_iff :
    s.session (op :: ops) = .next t ↔ ∃ u, s.apply op = .next u ∧ u.session ops = .next t := by
  rw [State.session]
  cases s.apply op <;> simp

theorem State.session_keeps_fault (hs : s.fault = some f) (h : s.session ops = .next t) : t.fault = some f := by
  induction ops generalizing s with
  | nil =>
    obtain rfl := Host.Outcome.next.inj h
    exact hs
  | cons op ops ih =>
    obtain ⟨u, hu, hrest⟩ := State.session_cons_next_iff.1 h
    exact ih (State.apply_keeps_fault hs hu) hrest

/-- A schedule that ends with no fault recorded began with none. -/
theorem State.fault_eq_none_of_session (h : s.session ops = .next t) (hf : t.fault = none) : s.fault = none := by
  cases hs : s.fault with
  | none => rfl
  | some f => simp [State.session_keeps_fault hs h] at hf

theorem State.apply_memoryCanonical (hs : s.MemoryCanonical) (h : s.apply op = .next t) (hf : t.fault = none) :
    t.MemoryCanonical := by
  obtain hstep | ⟨hmem, hparams⟩ := State.apply_next h hf
  · exact stepKeepsMemoryCanonical s t hs hstep
  · unfold State.MemoryCanonical
    rwa [hmem, hparams]

end

/-- Settles O55: by induction on the schedule. No state on the way has a fault recorded, for it would still be recorded at
the end, so every operation on the way keeps the form. -/
theorem everySessionKeepsMemoryCanonical : Obligations.EverySessionKeepsMemoryCanonical := by
  intro s t ops hs h hf
  induction ops generalizing s with
  | nil =>
    obtain rfl := Host.Outcome.next.inj h
    exact hs
  | cons op ops ih =>
    obtain ⟨u, hu, hrest⟩ := State.session_cons_next_iff.1 h
    have hnone : u.fault = none := State.fault_eq_none_of_session hrest hf
    exact ih u (State.apply_memoryCanonical hs hu hnone) hrest

/-! ## Ticks and events (R132, R134, R135) -/

theorem countDown_toNat (b : Byte) : (countDown b).toNat = b.toNat - 1 := by
  unfold countDown
  split
  · next h => simp [h]
  · next h => bv_omega

/-- Settles O58: both timers count down, and `tick` writes nothing else. -/
theorem tickCountsDownToZero : Obligations.TickCountsDownToZero :=
  fun s => ⟨rfl, countDown_toNat s.dt, countDown_toNat s.st, rfl⟩

theorem State.keyEvent_refused {s : State} {k : Nat} {pressed : Bool} (h : 16 ≤ k) :
    s.keyEvent k pressed = .refused (.keyOutOfRange k) :=
  dif_neg (Nat.not_lt.2 h)

theorem State.key_set (s : State) {k : Nat} (h : k < 16) (pressed : Bool) (j : Fin 16) :
    ({ s with keys := s.keys.set k pressed } : State).key j = if j.val = k then pressed else s.key j := by
  simp only [State.key, Vector.getElem_set, eq_comm]

/-- Settles O59: each operation writes its one field, and of the keys the one entry. -/
theorem hostEventsChangeOnlyTheirEntry : Obligations.HostEventsChangeOnlyTheirEntry :=
  fun s _ pressed => ⟨fun hk => ⟨_, State.keyEvent_next_iff.2 ⟨hk, rfl⟩, s.key_set hk pressed, rfl⟩,
    State.keyEvent_refused, ⟨_, rfl, rfl, rfl⟩⟩

/-! ## The host's reads (R136, R137) -/

/-- The bytes of `framebuffer()`, their number in the type: the rows one after another, a pixel a byte. -/
def Framebuffer.bytes (fb : Framebuffer) : Vector Byte (32 * 64) := fb.flatMap (·.map flagByte)

theorem State.framebuffer_eq (s : State) : s.framebuffer = s.fb.bytes.toList := by
  have hrow : ∀ row : Vector Bool 64, (row.map flagByte).toArray.toList = row.toList.map flagByte :=
    fun _ => Vector.toList_map
  simp only [Framebuffer.bytes, Vector.flatMap, Vector.toList_mk, Array.toList_flatMap, hrow]
  rfl

theorem Framebuffer.mem_bytes {fb : Framebuffer} {b : Byte} (h : b ∈ fb.bytes) : b = 0 ∨ b = 1 := by
  obtain ⟨row, -, hrow⟩ := Vector.mem_flatMap.1 h
  obtain ⟨p, -, rfl⟩ := Vector.mem_map.1 hrow
  cases p with
  | false => exact .inl rfl
  | true => exact .inr rfl

/-- Row-major order: 64 bytes to a row. -/
theorem Framebuffer.getElem_bytes (fb : Framebuffer) (r : Fin 32) (c : Fin 64) :
    fb.bytes[r.val * 64 + c.val] = flagByte (fb.pixel r c) := by
  have hrow : (r.val * 64 + c.val) / 64 = r.val := by omega
  have hcol : (r.val * 64 + c.val) % 64 = c.val := by omega
  simp only [Framebuffer.bytes, Vector.getElem_flatMap, Vector.getElem_map, hrow, hcol, Framebuffer.pixel]

/-- Settles O60: `framebuffer()` is the rows one after another. -/
theorem hostReadsShowDisplayAndTimers : Obligations.HostReadsShowDisplayAndTimers := by
  intro s
  rw [s.framebuffer_eq]
  refine ⟨Vector.length_toList, fun b hb => Framebuffer.mem_bytes (Vector.mem_toList_iff.1 hb), fun r c => ?_,
    s.soundIssued_iff, s.delayIssued_iff⟩
  rw [Vector.getElem?_toList, Vector.getElem?_eq_getElem (by omega), Framebuffer.getElem_bytes]
  rfl

end Sys2Proof.Machine
